-- ==== Sys2Proof/Word.lean ====
section
/-! DEFINITION. The two widths of CE86 (spec/00_scope.md R10): a byte is 8 bits, a word is 16 bits. Bit 0 is the
least significant bit. Helpers that take bytes and words apart stand in Decode.lean and Machine/Ops.lean. -/

namespace Sys2Proof

/-- 8 bits (R10): a location of the Byte Store, half of a word register `ax` to `bx`. -/
abbrev Byte := BitVec 8

/-- 16 bits (R10): a word register, the instruction pointer, an effective address. -/
abbrev Word := BitVec 16

end Sys2Proof
end

