-- ==== Sys2Proof/Config.lean ====
section
/-! DEFINITION. The constants of CE86 (spec/00_scope.md R7). The arguments of a run (`IMAGE`, `L`, `MODE`, and the
policy `UNIMPL_POLICY` of spec/93_implementation_defined.md U1) are not constants: they are given to `Machine.boot`
(Machine/Reset.lean) and held in State. CE86 has no free value: R346 says that there is no unspecified value
anywhere once the spec's decisions are taken. -/

namespace Sys2Proof.Config

/-- `MEM_SIZE` (R7, R36): capacity of the Byte Store, addresses 0 to 2^20 − 1. -/
def memSize : Nat := 2 ^ 20

/-- The longest image of an Execute run (R7, R261, R340): `L ≤ 2^16`. -/
def executeMaxLen : Nat := 2 ^ 16

/-- `MAX_INSN` (R7, R160): the longest instruction, in bytes. -/
def maxInsn : Nat := 6

/-- `MIN_INSN` (R7, R160): the shortest instruction, in bytes. -/
def minInsn : Nat := 2

end Sys2Proof.Config
end

