-- ==== Sys2Proof/Syntax.lean ====
section
/-! DEFINITION. The instruction set as data: one constructor of `Instr` for every row of spec/opcode_table.json
(46 rows, R13, R125), with every bit of its encoding that the row leaves open; and the record `Instruction` the
spec's Decoder delivers (R91), which is a view of it. -/

namespace Sys2Proof

/-- The 28 operations (R13, R91). The first eight are `mov` and the seven of the sub-opcode (R99). -/
inductive Mnemonic where
  | mov | add | or | adc | sbb | and | sub | cmp
  | jo | jno | jb | jnb | je | jnz | jbe | ja
  | js | jns | jp | jnp | jl | jnl | jle | jg
  | loopnz | loopz | loop | jcxz
  deriving DecidableEq, Repr

/-- The seven operations a sub-opcode selects (R99). -/
inductive ArithOp where
  | add | or | adc | sbb | and | sub | cmp
  deriving DecidableEq, Repr

/-- The twenty operations of format J (R115). -/
inductive JumpOp where
  | jo | jno | jb | jnb | je | jnz | jbe | ja
  | js | jns | jp | jnp | jl | jnl | jle | jg
  | loopnz | loopz | loop | jcxz
  deriving DecidableEq, Repr

/-- The eight opcode families, in the order of the cascade (R92, R93). -/
inductive Family where
  | jcc | immRmArith | immRmMov | immAccArith | immRegMov | accMemMov | rmRegMov | rmRegArith
  deriving DecidableEq, Repr

/-- The eight word registers, in the order of their numbers 0 to 7 (R20). -/
inductive Reg16 where
  | ax | cx | dx | bx | sp | bp | si | di
  deriving DecidableEq, Repr

/-- The eight base-register pairs, in the order of their codes 000 to 111 (R104). -/
inductive BasePair where
  | bxSi | bxDi | bpSi | bpDi | si | di | bp | bx
  deriving DecidableEq, Repr

/-- The r/m operand as it is encoded (R103): which `mod` it has, and its displacement bytes as one pattern.
`mem` with base `bp` has no encoding: `mod = 00, rm = 110` is `direct` (R104). -/
inductive RmOperand where
  | reg (code : BitVec 3)                    -- mod = 11
  | mem (base : BasePair)                    -- mod = 00, rm ≠ 110
  | mem8 (base : BasePair) (disp : Byte)     -- mod = 01
  | mem16 (base : BasePair) (disp : Word)    -- mod = 10
  | direct (addr : Word)                     -- mod = 00, rm = 110
  deriving DecidableEq, Repr

/-- The immediate as it is encoded: one `data` byte or two (R107). -/
inductive Imm where
  | byte (v : Byte)
  | word (v : Word)
  deriving DecidableEq, Repr

/-- The formats (R94 to R101) with their fields; `rel` is `rel8`, and `t = true` of format MA stores. -/
inductive Form where
  | rm (d w : Bool) (reg : BitVec 3) (rm : RmOperand)
  | irm (s w : Bool) (rm : RmOperand) (imm : Imm)
  | imv (w : Bool) (rm : RmOperand) (imm : Imm)
  | ia (w : Bool) (imm : Imm)
  | ir (w : Bool) (reg : BitVec 3) (imm : Imm)
  | ma (t w : Bool) (addr : Word)
  | j (rel : Byte)
  deriving DecidableEq, Repr

/-- The instructions: one constructor for each row of spec/opcode_table.json. A constructor keeps every bit its row
leaves open, so that two encodings of one effect (R122) are two terms. -/
inductive Instr where
  | movRM (d w : Bool) (reg : BitVec 3) (rm : RmOperand)       -- R181, 100010dw mod reg rm
  | movIMV (w : Bool) (rm : RmOperand) (imm : Imm)             -- R182, 1100011w mod 000 rm
  | movIR (w : Bool) (reg : BitVec 3) (imm : Imm)              -- R183, 1011wreg
  | movLoad (w : Bool) (addr : Word)                           -- R184, 1010000w (format MA, t = 0)
  | movStore (w : Bool) (addr : Word)                          -- R185, 1010001w (format MA, t = 1)
  | addRM (d w : Bool) (reg : BitVec 3) (rm : RmOperand)       -- R200, 000000dw mod reg rm
  | addIRM (s w : Bool) (rm : RmOperand) (imm : Imm)           -- R201, 100000sw mod 000 rm
  | addIA (w : Bool) (imm : Imm)                               -- R202, 0000010w
  | orRM (d w : Bool) (reg : BitVec 3) (rm : RmOperand)       -- R203, 000010dw mod reg rm
  | orIRM (s w : Bool) (rm : RmOperand) (imm : Imm)           -- R204, 100000sw mod 001 rm
  | orIA (w : Bool) (imm : Imm)                               -- R205, 0000110w
  | adcRM (d w : Bool) (reg : BitVec 3) (rm : RmOperand)       -- R206, 000100dw mod reg rm
  | adcIRM (s w : Bool) (rm : RmOperand) (imm : Imm)           -- R207, 100000sw mod 010 rm
  | adcIA (w : Bool) (imm : Imm)                               -- R208, 0001010w
  | sbbRM (d w : Bool) (reg : BitVec 3) (rm : RmOperand)       -- R209, 000110dw mod reg rm
  | sbbIRM (s w : Bool) (rm : RmOperand) (imm : Imm)           -- R210, 100000sw mod 011 rm
  | sbbIA (w : Bool) (imm : Imm)                               -- R211, 0001110w
  | andRM (d w : Bool) (reg : BitVec 3) (rm : RmOperand)       -- R212, 001000dw mod reg rm
  | andIRM (s w : Bool) (rm : RmOperand) (imm : Imm)           -- R213, 100000sw mod 100 rm
  | andIA (w : Bool) (imm : Imm)                               -- R214, 0010010w
  | subRM (d w : Bool) (reg : BitVec 3) (rm : RmOperand)       -- R215, 001010dw mod reg rm
  | subIRM (s w : Bool) (rm : RmOperand) (imm : Imm)           -- R216, 100000sw mod 101 rm
  | subIA (w : Bool) (imm : Imm)                               -- R217, 0010110w
  | cmpRM (d w : Bool) (reg : BitVec 3) (rm : RmOperand)       -- R218, 001110dw mod reg rm
  | cmpIRM (s w : Bool) (rm : RmOperand) (imm : Imm)           -- R219, 100000sw mod 111 rm
  | cmpIA (w : Bool) (imm : Imm)                               -- R220, 0011110w
  | jo (rel : Byte)                                           -- R233, 0x70 rel8
  | jno (rel : Byte)                                           -- R234, 0x71 rel8
  | jb (rel : Byte)                                           -- R235, 0x72 rel8
  | jnb (rel : Byte)                                           -- R236, 0x73 rel8
  | je (rel : Byte)                                           -- R237, 0x74 rel8
  | jnz (rel : Byte)                                           -- R238, 0x75 rel8
  | jbe (rel : Byte)                                           -- R239, 0x76 rel8
  | ja (rel : Byte)                                           -- R240, 0x77 rel8
  | js (rel : Byte)                                           -- R241, 0x78 rel8
  | jns (rel : Byte)                                           -- R242, 0x79 rel8
  | jp (rel : Byte)                                           -- R243, 0x7A rel8
  | jnp (rel : Byte)                                           -- R244, 0x7B rel8
  | jl (rel : Byte)                                           -- R245, 0x7C rel8
  | jnl (rel : Byte)                                           -- R246, 0x7D rel8
  | jle (rel : Byte)                                           -- R247, 0x7E rel8
  | jg (rel : Byte)                                           -- R248, 0x7F rel8
  | loopnz (rel : Byte)                                           -- R249, 0xE0 rel8
  | loopz (rel : Byte)                                           -- R250, 0xE1 rel8
  | loop (rel : Byte)                                           -- R251, 0xE2 rel8
  | jcxz (rel : Byte)                                           -- R252, 0xE3 rel8
  deriving DecidableEq, Repr

/-- The operation of an instruction (R91). -/
def Instr.mnemonic : Instr → Mnemonic
  | .movRM .. | .movIMV .. | .movIR .. | .movLoad .. | .movStore .. => .mov
  | .addRM .. | .addIRM .. | .addIA .. => .add
  | .orRM .. | .orIRM .. | .orIA .. => .or
  | .adcRM .. | .adcIRM .. | .adcIA .. => .adc
  | .sbbRM .. | .sbbIRM .. | .sbbIA .. => .sbb
  | .andRM .. | .andIRM .. | .andIA .. => .and
  | .subRM .. | .subIRM .. | .subIA .. => .sub
  | .cmpRM .. | .cmpIRM .. | .cmpIA .. => .cmp
  | .jo _ => .jo
  | .jno _ => .jno
  | .jb _ => .jb
  | .jnb _ => .jnb
  | .je _ => .je
  | .jnz _ => .jnz
  | .jbe _ => .jbe
  | .ja _ => .ja
  | .js _ => .js
  | .jns _ => .jns
  | .jp _ => .jp
  | .jnp _ => .jnp
  | .jl _ => .jl
  | .jnl _ => .jnl
  | .jle _ => .jle
  | .jg _ => .jg
  | .loopnz _ => .loopnz
  | .loopz _ => .loopz
  | .loop _ => .loop
  | .jcxz _ => .jcxz

/-- The format of an instruction, with its fields. -/
def Instr.form : Instr → Form
  | .movRM d w reg rm => .rm d w reg rm
  | .movIMV w rm imm => .imv w rm imm
  | .movIR w reg imm => .ir w reg imm
  | .movLoad w addr => .ma false w addr
  | .movStore w addr => .ma true w addr
  | .addRM d w reg rm => .rm d w reg rm
  | .addIRM s w rm imm => .irm s w rm imm
  | .addIA w imm => .ia w imm
  | .orRM d w reg rm => .rm d w reg rm
  | .orIRM s w rm imm => .irm s w rm imm
  | .orIA w imm => .ia w imm
  | .adcRM d w reg rm => .rm d w reg rm
  | .adcIRM s w rm imm => .irm s w rm imm
  | .adcIA w imm => .ia w imm
  | .sbbRM d w reg rm => .rm d w reg rm
  | .sbbIRM s w rm imm => .irm s w rm imm
  | .sbbIA w imm => .ia w imm
  | .andRM d w reg rm => .rm d w reg rm
  | .andIRM s w rm imm => .irm s w rm imm
  | .andIA w imm => .ia w imm
  | .subRM d w reg rm => .rm d w reg rm
  | .subIRM s w rm imm => .irm s w rm imm
  | .subIA w imm => .ia w imm
  | .cmpRM d w reg rm => .rm d w reg rm
  | .cmpIRM s w rm imm => .irm s w rm imm
  | .cmpIA w imm => .ia w imm
  | .jo rel => .j rel
  | .jno rel => .j rel
  | .jb rel => .j rel
  | .jnb rel => .j rel
  | .je rel => .j rel
  | .jnz rel => .j rel
  | .jbe rel => .j rel
  | .ja rel => .j rel
  | .js rel => .j rel
  | .jns rel => .j rel
  | .jp rel => .j rel
  | .jnp rel => .j rel
  | .jl rel => .j rel
  | .jnl rel => .j rel
  | .jle rel => .j rel
  | .jg rel => .j rel
  | .loopnz rel => .j rel
  | .loopz rel => .j rel
  | .loop rel => .j rel
  | .jcxz rel => .j rel

/-- The five operations with execution semantics (R13, R262). -/
def Mnemonic.executable : Mnemonic → Bool
  | .mov | .add | .sub | .cmp | .jnz => true
  | .or | .adc | .sbb | .and => false
  | .jo | .jno | .jb | .jnb | .je | .jbe | .ja | .js | .jns | .jp | .jnp | .jl | .jnl | .jle | .jg => false
  | .loopnz | .loopz | .loop | .jcxz => false

/-- An address as the Decoder delivers it (R91): a base pair or none, and the canonical displacement (R105, R106). -/
structure EffectiveAddress where
  base : Option BasePair
  disp : Int
  deriving DecidableEq, Repr

/-- An operand (R91): `register code` is read with the instruction's `wide`; `immediate` holds the canonical value
(R109). -/
inductive Operand where
  | register (code : BitVec 3)
  | memory (ea : EffectiveAddress)
  | immediate (value : Int) (isRelative : Bool)
  deriving DecidableEq, Repr

/-- The record a successful decode delivers (R91). -/
structure Instruction where
  address   : Nat
  size      : Nat
  operation : Mnemonic
  wide      : Bool
  operands  : List Operand
  deriving DecidableEq, Repr

/-- The two decode failures (R300). -/
inductive DecodeFailure where
  | unrecognizedOpcode
  | truncatedInstruction
  deriving DecidableEq, Repr

end Sys2Proof
end

