-- ==== Sys2Proof/WellFormed.lean ====
section
/-! DEFINITION. Which terms of Instr are instructions: those the encoding has bytes for. Two checks: a memory operand
without displacement has a base other than `bp` (spec/30_encoding.md R103, R104), and an immediate has the length the
wide bit, and in format IRM the sign bit, give it (R107). -/

namespace Sys2Proof

/-- R104: `[bp]` with no displacement has no `mod = 00` encoding. -/
def RmOperand.wf : RmOperand → Bool
  | .mem b => b != .bp
  | _ => true

/-- R107: two data bytes when `two`, else one. -/
def Imm.fits (imm : Imm) (two : Bool) : Bool :=
  match imm with
  | .byte _ => !two
  | .word _ => two

/-- The checks of each format. -/
def Form.wf : Form → Bool
  | .rm _ _ _ o => o.wf
  | .irm s w o imm => o.wf && imm.fits (w && !s)
  | .imv w o imm => o.wf && imm.fits w
  | .ia w imm => imm.fits w
  | .ir w _ imm => imm.fits w
  | .ma _ _ _ => true
  | .j _ => true

/-- A term the encoding has bytes for. -/
def Instr.wf (i : Instr) : Bool := i.form.wf

end Sys2Proof
end

