-- ==== Sys2Proof/Decode.lean ====
section
/-! DEFINITION. The Decoder (spec/40_decoder.md R140 to R163, spec/30_encoding.md R90 to R125) as a total function on
the bytes that stand at the position and below the loaded length, the encoder after it, and the decoder on a word of
spec/opcode_table.json. The numeric encodings are the Intel 8086's, imported by the spec (D2, log entry 1). -/

namespace Sys2Proof

/-! ### Bits and bytes -/

/-- The low byte of a word. -/
def loByte (w : Word) : Byte := w.extractLsb' 0 8

/-- The high byte of a word. -/
def hiByte (w : Word) : Byte := w.extractLsb' 8 8

/-- `hi ++ lo` (R10): the word whose more significant byte is `hi`. -/
def mkWord (hi lo : Byte) : Word := hi ++ lo

/-- A flag as an encoding bit. -/
def bit (b : Bool) : BitVec 1 := BitVec.ofBool b

/-- Bit `n` of a first byte as a flag. -/
def bitAt (b : Byte) (n : Nat) : Bool := b.getLsbD n

/-- `b0[5:3]`, and `b1[5:3]` (R99, R102): a 3-bit field in the middle of a byte. -/
def midField (b : Byte) : BitVec 3 := b.extractLsb' 3 3

/-- The low 3 bits: `rm` of a mode byte, `reg` of format IR (R95, R100). -/
def lowField (b : Byte) : BitVec 3 := b.extractLsb' 0 3

/-- `mod`, the high 2 bits of a mode byte (R103). -/
def modField (b : Byte) : BitVec 2 := b.extractLsb' 6 2

/-! ### The tables of the encoding -/

/-- The sub-opcode table (R99); 110 selects nothing (R121, D11). -/
def ArithOp.ofCode (c : BitVec 3) : Option ArithOp :=
  match c.toNat with
  | 0 => some .add
  | 1 => some .or
  | 2 => some .adc
  | 3 => some .sbb
  | 4 => some .and
  | 5 => some .sub
  | 7 => some .cmp
  | _ => none

/-- The first bytes of format J (R115). -/
def JumpOp.opcode : JumpOp → Byte
  | .jo => 0x70#8
  | .jno => 0x71#8
  | .jb => 0x72#8
  | .jnb => 0x73#8
  | .je => 0x74#8
  | .jnz => 0x75#8
  | .jbe => 0x76#8
  | .ja => 0x77#8
  | .js => 0x78#8
  | .jns => 0x79#8
  | .jp => 0x7A#8
  | .jnp => 0x7B#8
  | .jl => 0x7C#8
  | .jnl => 0x7D#8
  | .jle => 0x7E#8
  | .jg => 0x7F#8
  | .loopnz => 0xE0#8
  | .loopz => 0xE1#8
  | .loop => 0xE2#8
  | .jcxz => 0xE3#8

/-- The operations of format J, in the order of R115. -/
def JumpOp.all : List JumpOp :=
  [.jo, .jno, .jb, .jnb, .je, .jnz, .jbe, .ja, .js, .jns,
   .jp, .jnp, .jl, .jnl, .jle, .jg, .loopnz, .loopz, .loop, .jcxz]

/-- The jump a first byte stands for, by exact match (R92, R115). -/
def JumpOp.ofByte (b0 : Byte) : Option JumpOp := JumpOp.all.find? (fun j => j.opcode == b0)

/-- The base pair of an `rm` code (R104). -/
def BasePair.ofCode (c : BitVec 3) : BasePair :=
  match c.toNat with
  | 0 => .bxSi
  | 1 => .bxDi
  | 2 => .bpSi
  | 3 => .bpDi
  | 4 => .si
  | 5 => .di
  | 6 => .bp
  | _ => .bx

/-- The `rm` code of a base pair (R104). -/
def BasePair.code : BasePair → BitVec 3
  | .bxSi => 0b000#3
  | .bxDi => 0b001#3
  | .bpSi => 0b010#3
  | .bpDi => 0b011#3
  | .si => 0b100#3
  | .di => 0b101#3
  | .bp => 0b110#3
  | .bx => 0b111#3

/-! ### The instruction a row and its fields stand for -/

/-- Format RM with a sub-opcode. -/
def ArithOp.instrRM (op : ArithOp) (d w : Bool) (reg : BitVec 3) (rm : RmOperand) : Instr :=
  match op with
  | .add => .addRM d w reg rm
  | .or => .orRM d w reg rm
  | .adc => .adcRM d w reg rm
  | .sbb => .sbbRM d w reg rm
  | .and => .andRM d w reg rm
  | .sub => .subRM d w reg rm
  | .cmp => .cmpRM d w reg rm

/-- Format IRM with a sub-opcode. -/
def ArithOp.instrIRM (op : ArithOp) (s w : Bool) (rm : RmOperand) (imm : Imm) : Instr :=
  match op with
  | .add => .addIRM s w rm imm
  | .or => .orIRM s w rm imm
  | .adc => .adcIRM s w rm imm
  | .sbb => .sbbIRM s w rm imm
  | .and => .andIRM s w rm imm
  | .sub => .subIRM s w rm imm
  | .cmp => .cmpIRM s w rm imm

/-- Format IA with a sub-opcode. -/
def ArithOp.instrIA (op : ArithOp) (w : Bool) (imm : Imm) : Instr :=
  match op with
  | .add => .addIA w imm
  | .or => .orIA w imm
  | .adc => .adcIA w imm
  | .sbb => .sbbIA w imm
  | .and => .andIA w imm
  | .sub => .subIA w imm
  | .cmp => .cmpIA w imm

/-- Format J with its operation. -/
def JumpOp.instr (op : JumpOp) (rel : Byte) : Instr :=
  match op with
  | .jo => .jo rel
  | .jno => .jno rel
  | .jb => .jb rel
  | .jnb => .jnb rel
  | .je => .je rel
  | .jnz => .jnz rel
  | .jbe => .jbe rel
  | .ja => .ja rel
  | .js => .js rel
  | .jns => .jns rel
  | .jp => .jp rel
  | .jnp => .jnp rel
  | .jl => .jl rel
  | .jnl => .jnl rel
  | .jle => .jle rel
  | .jg => .jg rel
  | .loopnz => .loopnz rel
  | .loopz => .loopz rel
  | .loop => .loop rel
  | .jcxz => .jcxz rel

/-! ### Classification -/

/-- The cascade of R144, in its order. -/
def classify (b0 : Byte) : Option Family :=
  if (JumpOp.ofByte b0).isSome then some .jcc
  else if b0 &&& 0xFC#8 = 0x80#8 then some .immRmArith
  else if b0 &&& 0xFE#8 = 0xC6#8 then some .immRmMov
  else if b0 &&& 0xC6#8 = 0x04#8 ∧ midField b0 ≠ 0b110#3 then some .immAccArith
  else if b0 &&& 0xF0#8 = 0xB0#8 then some .immRegMov
  else if b0 &&& 0xFC#8 = 0xA0#8 then some .accMemMov
  else if b0 &&& 0xFC#8 = 0x88#8 then some .rmRegMov
  else if b0 &&& 0xC4#8 = 0x00#8 ∧ midField b0 ≠ 0b110#3 then some .rmRegArith
  else none

/-- The test a single row of the table of R92 puts to a first byte, whatever the other rows say. -/
def Family.test (f : Family) (b0 : Byte) : Bool :=
  match f with
  | .jcc => (JumpOp.ofByte b0).isSome
  | .immRmArith => b0 &&& 0xFC#8 == 0x80#8
  | .immRmMov => b0 &&& 0xFE#8 == 0xC6#8
  | .immAccArith => b0 &&& 0xC6#8 == 0x04#8 && midField b0 != 0b110#3
  | .immRegMov => b0 &&& 0xF0#8 == 0xB0#8
  | .accMemMov => b0 &&& 0xFC#8 == 0xA0#8
  | .rmRegMov => b0 &&& 0xFC#8 == 0x88#8
  | .rmRegArith => b0 &&& 0xC4#8 == 0x00#8 && midField b0 != 0b110#3

/-! ### Field extraction. A field whose bytes are not there is a truncation (R160) -/

/-- A little-endian word at the front of the bytes (R62, R68). -/
def takeWord : List Byte → Option (Word × List Byte)
  | lo :: hi :: rest => some (mkWord hi lo, rest)
  | _ => none

/-- The immediate at the front of the bytes: two bytes when `two`, else one (R107, R108). -/
def takeImm (two : Bool) (bs : List Byte) : Option (Imm × List Byte) :=
  match two, bs with
  | true, bs => (takeWord bs).map (fun p => (.word p.1, p.2))
  | false, b :: rest => some (.byte b, rest)
  | false, [] => none

/-- The r/m operand of `mod` and `rm`, its displacement taken from the front of the bytes (R103 to R106, R149). -/
def takeRm (mod : BitVec 2) (rm : BitVec 3) (bs : List Byte) : Option (RmOperand × List Byte) :=
  match mod.toNat with
  | 0 =>
    if rm = 0b110#3 then (takeWord bs).map (fun p => (.direct p.1, p.2))
    else some (.mem (BasePair.ofCode rm), bs)
  | 1 =>
    match bs with
    | b :: rest => some (.mem8 (BasePair.ofCode rm) b, rest)
    | [] => none
  | 2 => (takeWord bs).map (fun p => (.mem16 (BasePair.ofCode rm) p.1, p.2))
  | _ => some (.reg rm, bs)

/-- A decode that lacked a byte fails with `TruncatedInstruction` (R160). -/
def orTruncated : Option Instr → Except DecodeFailure Instr
  | some i => .ok i
  | none => .error .truncatedInstruction

/-- Is the immediate of format IRM two bytes long (R107, R150)? -/
def irmWordImm (s w : Bool) : Bool := w && !s

/-- `JCC` (R145). -/
def decodeJump (b0 : Byte) (bs : List Byte) : Except DecodeFailure Instr :=
  match JumpOp.ofByte b0, bs with
  | some op, rel :: _ => .ok (op.instr rel)
  | some _, [] => .error .truncatedInstruction
  | none, _ => .error .unrecognizedOpcode

/-- `IMM_ACC_ARITH` (R146). -/
def decodeAccArith (b0 : Byte) (bs : List Byte) : Except DecodeFailure Instr :=
  match ArithOp.ofCode (midField b0) with
  | none => .error .unrecognizedOpcode
  | some op => orTruncated ((takeImm (bitAt b0 0) bs).map fun p => op.instrIA (bitAt b0 0) p.1)

/-- `IMM_REG_MOV` (R147); the wide bit is bit 3 (R100). -/
def decodeRegImm (b0 : Byte) (bs : List Byte) : Except DecodeFailure Instr :=
  orTruncated ((takeImm (bitAt b0 3) bs).map fun p => .movIR (bitAt b0 3) (lowField b0) p.1)

/-- `ACC_MEM_MOV` (R148); `t` is bit 1. -/
def decodeAccMem (b0 : Byte) (bs : List Byte) : Except DecodeFailure Instr :=
  orTruncated ((takeWord bs).map fun p =>
    if bitAt b0 1 then .movStore (bitAt b0 0) p.1 else .movLoad (bitAt b0 0) p.1)

/-- `RM_REG_MOV` (R151), after the mode byte `b1`. -/
def decodeRmMov (b0 b1 : Byte) (bs : List Byte) : Except DecodeFailure Instr :=
  orTruncated ((takeRm (modField b1) (lowField b1) bs).map fun p =>
    .movRM (bitAt b0 1) (bitAt b0 0) (midField b1) p.1)

/-- `RM_REG_ARITH` (R151), after the mode byte. -/
def decodeRmArith (b0 b1 : Byte) (bs : List Byte) : Except DecodeFailure Instr :=
  match ArithOp.ofCode (midField b0) with
  | none => .error .unrecognizedOpcode
  | some op =>
    orTruncated ((takeRm (modField b1) (lowField b1) bs).map fun p =>
      op.instrRM (bitAt b0 1) (bitAt b0 0) (midField b1) p.1)

/-- `IMM_RM_ARITH` (R152), after the mode byte; the sub-opcode 110 is rejected before any later byte is looked at
(R121, R143 step 6, R161 d). -/
def decodeImmRmArith (b0 b1 : Byte) (bs : List Byte) : Except DecodeFailure Instr :=
  match ArithOp.ofCode (midField b1) with
  | none => .error .unrecognizedOpcode
  | some op =>
    orTruncated ((takeRm (modField b1) (lowField b1) bs).bind fun p =>
      (takeImm (irmWordImm (bitAt b0 1) (bitAt b0 0)) p.2).map fun q =>
        op.instrIRM (bitAt b0 1) (bitAt b0 0) p.1 q.1)

/-- `IMM_RM_MOV` (R153), after the mode byte; a `reg` field other than 000 is rejected (R121). -/
def decodeImmRmMov (b0 b1 : Byte) (bs : List Byte) : Except DecodeFailure Instr :=
  if midField b1 ≠ 0b000#3 then .error .unrecognizedOpcode
  else
    orTruncated ((takeRm (modField b1) (lowField b1) bs).bind fun p =>
      (takeImm (bitAt b0 0) p.2).map fun q => .movIMV (bitAt b0 0) p.1 q.1)

/-- The families with a mode byte need it (R143 step 5). -/
def withModeByte (k : Byte → List Byte → Except DecodeFailure Instr) (bs : List Byte) : Except DecodeFailure Instr :=
  match bs with
  | [] => .error .truncatedInstruction
  | b1 :: rest => k b1 rest

/-- The Decoder (R143) on the bytes that stand from the position on and below the loaded length; an empty list is a
position at or beyond the loaded length. A field that needs a byte the list has not is the test `p + size > L`. -/
def decode (bs : List Byte) : Except DecodeFailure Instr :=
  match bs with
  | [] => .error .truncatedInstruction
  | b0 :: rest =>
    match classify b0 with
    | none => .error .unrecognizedOpcode
    | some .jcc => decodeJump b0 rest
    | some .immRmArith => withModeByte (decodeImmRmArith b0) rest
    | some .immRmMov => withModeByte (decodeImmRmMov b0) rest
    | some .immAccArith => decodeAccArith b0 rest
    | some .immRegMov => decodeRegImm b0 rest
    | some .accMemMov => decodeAccMem b0 rest
    | some .rmRegMov => withModeByte (decodeRmMov b0) rest
    | some .rmRegArith => withModeByte (decodeRmArith b0) rest

/-! ### Length -/

/-- `dispLen` (R113, R149). -/
def RmOperand.dispLen : RmOperand → Nat
  | .reg _ => 0
  | .mem _ => 0
  | .mem8 _ _ => 1
  | .mem16 _ _ => 2
  | .direct _ => 2

/-- The number of `data` bytes: 2 or 1 (R107). -/
def immLen (two : Bool) : Nat := if two then 2 else 1

/-- The size of an instruction in bytes (R113). -/
def Instr.size (i : Instr) : Nat :=
  match i.form with
  | .rm _ _ _ rm => 2 + rm.dispLen
  | .irm s w rm _ => 2 + rm.dispLen + immLen (irmWordImm s w)
  | .imv w rm _ => 2 + rm.dispLen + immLen w
  | .ia w _ => 1 + immLen w
  | .ir w _ _ => 1 + immLen w
  | .ma _ _ _ => 3
  | .j _ => 2

/-! ### The encoder -/

/-- A little-endian word (R62). -/
def encodeWord (w : Word) : List Byte := [loByte w, hiByte w]

/-- The `data` bytes (R107, R108). -/
def encodeImm : Imm → List Byte
  | .byte v => [v]
  | .word v => encodeWord v

/-- The mode byte with its `reg` field, and the displacement bytes (R103 to R106). -/
def encodeModeByte (reg : BitVec 3) : RmOperand → List Byte
  | .reg c => [0b11#2 ++ reg ++ c]
  | .mem b => [0b00#2 ++ reg ++ b.code]
  | .mem8 b disp => [0b01#2 ++ reg ++ b.code, disp]
  | .mem16 b disp => (0b10#2 ++ reg ++ b.code) :: encodeWord disp
  | .direct addr => (0b00#2 ++ reg ++ 0b110#3) :: encodeWord addr

/-- Format RM (R95): six opcode bits, `d`, `w`, the mode byte. -/
def encodeRM (op : BitVec 6) (d w : Bool) (reg : BitVec 3) (rm : RmOperand) : List Byte :=
  (op ++ bit d ++ bit w) :: encodeModeByte reg rm

/-- Format IRM (R96): `100000sw`, the sub-opcode in the mode byte. -/
def encodeIRM (op : BitVec 3) (s w : Bool) (rm : RmOperand) (imm : Imm) : List Byte :=
  (0b100000#6 ++ bit s ++ bit w) :: encodeModeByte op rm ++ encodeImm imm

/-- Format IA (R98): `00ooo10w`. -/
def encodeIA (op : BitVec 3) (w : Bool) (imm : Imm) : List Byte :=
  (0b00#2 ++ op ++ 0b10#2 ++ bit w) :: encodeImm imm

/-- The bytes of an instruction, written from the formats (R94 to R101) and the table of first bytes (R115, R190). -/
def encode : Instr → List Byte
  | .movRM d w reg rm => encodeRM 0b100010#6 d w reg rm
  | .movIMV w rm imm => (0b1100011#7 ++ bit w) :: encodeModeByte 0b000#3 rm ++ encodeImm imm
  | .movIR w reg imm => (0b1011#4 ++ bit w ++ reg) :: encodeImm imm
  | .movLoad w addr => (0b101000#6 ++ bit false ++ bit w) :: encodeWord addr
  | .movStore w addr => (0b101000#6 ++ bit true ++ bit w) :: encodeWord addr
  | .addRM d w reg rm => encodeRM 0b000000#6 d w reg rm
  | .addIRM s w rm imm => encodeIRM 0b000#3 s w rm imm
  | .addIA w imm => encodeIA 0b000#3 w imm
  | .orRM d w reg rm => encodeRM 0b000010#6 d w reg rm
  | .orIRM s w rm imm => encodeIRM 0b001#3 s w rm imm
  | .orIA w imm => encodeIA 0b001#3 w imm
  | .adcRM d w reg rm => encodeRM 0b000100#6 d w reg rm
  | .adcIRM s w rm imm => encodeIRM 0b010#3 s w rm imm
  | .adcIA w imm => encodeIA 0b010#3 w imm
  | .sbbRM d w reg rm => encodeRM 0b000110#6 d w reg rm
  | .sbbIRM s w rm imm => encodeIRM 0b011#3 s w rm imm
  | .sbbIA w imm => encodeIA 0b011#3 w imm
  | .andRM d w reg rm => encodeRM 0b001000#6 d w reg rm
  | .andIRM s w rm imm => encodeIRM 0b100#3 s w rm imm
  | .andIA w imm => encodeIA 0b100#3 w imm
  | .subRM d w reg rm => encodeRM 0b001010#6 d w reg rm
  | .subIRM s w rm imm => encodeIRM 0b101#3 s w rm imm
  | .subIA w imm => encodeIA 0b101#3 w imm
  | .cmpRM d w reg rm => encodeRM 0b001110#6 d w reg rm
  | .cmpIRM s w rm imm => encodeIRM 0b111#3 s w rm imm
  | .cmpIA w imm => encodeIA 0b111#3 w imm
  | .jo rel => [0x70#8, rel]
  | .jno rel => [0x71#8, rel]
  | .jb rel => [0x72#8, rel]
  | .jnb rel => [0x73#8, rel]
  | .je rel => [0x74#8, rel]
  | .jnz rel => [0x75#8, rel]
  | .jbe rel => [0x76#8, rel]
  | .ja rel => [0x77#8, rel]
  | .js rel => [0x78#8, rel]
  | .jns rel => [0x79#8, rel]
  | .jp rel => [0x7A#8, rel]
  | .jnp rel => [0x7B#8, rel]
  | .jl rel => [0x7C#8, rel]
  | .jnl rel => [0x7D#8, rel]
  | .jle rel => [0x7E#8, rel]
  | .jg rel => [0x7F#8, rel]
  | .loopnz rel => [0xE0#8, rel]
  | .loopz rel => [0xE1#8, rel]
  | .loop rel => [0xE2#8, rel]
  | .jcxz rel => [0xE3#8, rel]

/-! ### A word of the opcode table -/

/-- Byte `k` of an instruction whose bits are `w` as spec/opcode_table.json numbers them. R125: the table's number is
`b0 ++ b1`, so the first byte stands in bits 15 to 8 and the second in bits 7 to 0 (log entry 10). The table numbers
no later byte; byte `k` is then taken from bits 8k+7 to 8k. -/
def tableByte (nbits w k : Nat) : Byte :=
  let v := w % 2 ^ nbits
  if nbits ≤ 8 then BitVec.ofNat 8 (if k = 0 then v else 0)
  else match k with
    | 0 => BitVec.ofNat 8 (v / 256)
    | 1 => BitVec.ofNat 8 v
    | k => BitVec.ofNat 8 (v / 256 ^ k)

/-- The six bytes of such an instruction; what the table gives no bits for is 0. -/
def tableBytes (nbits w : Nat) : List Byte :=
  [tableByte nbits w 0, tableByte nbits w 1, tableByte nbits w 2,
   tableByte nbits w 3, tableByte nbits w 4, tableByte nbits w 5]

/-- The instruction the Decoder reads from a word of spec/opcode_table.json, none where it fails. -/
def decodeTableWord (nbits w : Nat) : Option Instr :=
  match decode (tableBytes nbits w) with
  | .ok i => some i
  | .error _ => none

end Sys2Proof
end

