-- ==== Sys2Proof/Machine/State.lean ====
section
/-! DEFINITION. The state of CE86 as plain data (spec/10_state.md R20 to R41), the reasons a step can stop, and the
state right after reset. -/

namespace Sys2Proof.Machine

/-- The Register File's eight word registers (R20), in the order of their numbers. The byte registers are halves of
the first four (R21) and have no storage of their own. -/
structure Regs where
  ax : Word
  cx : Word
  dx : Word
  bx : Word
  sp : Word
  bp : Word
  si : Word
  di : Word
  deriving DecidableEq, Repr

/-- The Byte Store `M` (R36): the cells that do not hold 0x00, addresses strictly rising. An unlisted address reads
as 0x00, which is what R61 gives the space after the image. -/
abbrev Memory := List Host.Cell

/-- Which loop the engine runs (R260). -/
inductive Mode where
  | trace
  | execute
  deriving DecidableEq, Repr

/-- `UNIMPL_POLICY` (spec/93_implementation_defined.md U1, U2): what Execute mode does with an instruction that has no
execution semantics. `refuse` is the default and the behaviour of R268; `skip` is the alternative the spec names,
which it allows only as a parameter. -/
inductive UnimplPolicy where
  | refuse
  | skip
  deriving DecidableEq, Repr

/-- The instruction the `Decoded` and `Applying` states carry (R38, R261), and the position it was decoded at. The
record of R91 is a view of it (`DecodedInstr.record`, Machine/Operands.lean). -/
structure DecodedInstr where
  address : Nat
  instr   : Instr
  deriving DecidableEq, Repr

/-- `ES`, the engine state (R33): six values in Execute mode, three in Trace mode. The mode of the run is read off it
(`EngineState.mode`), since no value belongs to both. -/
inductive EngineState where
  | fetching
  | decoded (d : DecodedInstr)
  | applying (d : DecodedInstr)
  | haltedNormal
  | haltedError
  | refused
  | traceFetching
  | traceDone
  | traceError
  deriving DecidableEq, Repr

/-- The kinds of `ERR` (R35): the two decode failures and the refusal. -/
inductive ErrKind where
  | unrecognizedOpcode
  | truncatedInstruction
  | unimplemented
  deriving DecidableEq, Repr

/-- The content of `ERR` (R35): the kind, the position, and for a refusal the mnemonic. -/
structure ErrRecord where
  kind     : ErrKind
  position : Nat
  mnemonic : Option Mnemonic
  deriving DecidableEq, Repr

/-- One output of a run (R274): a rendered line, the diagnostic with the content of `ERR` (R311), or the final report
with the eight word registers, `IP` and the two flags (R271). -/
inductive Output where
  | line (text : String)
  | diagnostic (err : ErrRecord)
  | report (regs : Regs) (ip : Word) (zf sf : Bool)
  deriving DecidableEq, Repr

/-- The machine. The elements of R41 first; then the configuration a run keeps (R37, U1); then the outputs the run
has emitted, oldest first (R274; the model's own field, log entry 7). -/
structure State where
  regs         : Regs
  ip           : Word
  zf           : Bool
  sf           : Bool
  mem          : Memory
  cur          : Nat
  es           : EngineState
  err          : Option ErrRecord
  loadedLen    : Nat
  unimplPolicy : UnimplPolicy
  out          : List Output
  deriving DecidableEq, Repr

/-- A fault would be a stop of the machine itself. There is none, so the type has no constructor: a decode failure is
a transition to a terminal engine state (R262, R272, R308), no failure is raised at execution (R302), and no data
access fails (R71). Nothing raises one; safe. -/
inductive Fault where
  deriving DecidableEq, Repr

/-- Why an operation has no next state. -/
inductive Refusal where
  /-- An instruction whose arm in Machine/Dispatch.lean has no meaning yet. No arm raises it. Safe. -/
  | notModelled (mnemonic : String)
  /-- `opWrite` on an Immediate (R264: "should be an unreachable refusal, not a no-op"). No format has an Immediate
  destination, so no instruction raises it. Safe. -/
  | immediateDestination
  /-- `boot` with an image longer than 2^20 bytes (R340): no run is created. Safe. -/
  | imageTooLong
  /-- `boot` in Execute mode with an image longer than 2^16 bytes (R261, R340): no run is created. Safe. -/
  | executeImageTooLong
  deriving DecidableEq, Repr

/-- The state right after reset (R40, R340) for the arguments that load nothing: the empty image, so `L = 0`, Execute
mode, the default policy (log entry 5). Every element has the value of R40's table; the registers' and flags' zeros
are the spec's decision D5 (log entry 6). `boot` (Machine/Reset.lean) is the reset with its arguments. -/
def State.reset : State where
  regs := ⟨0#16, 0#16, 0#16, 0#16, 0#16, 0#16, 0#16, 0#16⟩
  ip := 0#16
  zf := false
  sf := false
  mem := []
  cur := 0
  es := .fetching
  err := none
  loadedLen := 0
  unimplPolicy := .refuse
  out := []

end Sys2Proof.Machine
end

