-- ==== Sys2Proof/Machine/Ops.lean ====
section
/-! DEFINITION. The named operations over registers, the Byte Store and the engine's control state: the register
accessors (spec/10_state.md R24, R25), the store accessors and the effective address (spec/20_memory.md R61 to R68),
the decode at a position (spec/40_decoder.md R143), and what takes the place of an exception: a decode failure
(spec/60_exceptions.md R308) and the refusal of an instruction (spec/45_sequencer.md R268). There is no return from
either (R310), so no operation for one. -/

namespace Sys2Proof.Machine

/-! ### Updates of one element -/

/-- Replace the register file. -/
def State.setRegs (s : State) (r : Regs) : State := { s with regs := r }

/-- `IP <- v` (R12). -/
def State.setIp (s : State) (v : Word) : State := { s with ip := v }

/-- Write both flags (R31). -/
def State.setFlags (s : State) (zf sf : Bool) : State := { s with zf := zf, sf := sf }

/-- Replace the Byte Store's contents. -/
def State.setMem (s : State) (m : Memory) : State := { s with mem := m }

/-- `CUR <- n` (R34). -/
def State.setCur (s : State) (n : Nat) : State := { s with cur := n }

/-- `ES <- e` (R33). -/
def State.setEs (s : State) (e : EngineState) : State := { s with es := e }

/-- `ERR <- e` (R35). -/
def State.setErr (s : State) (e : ErrRecord) : State := { s with err := some e }

/-- Emit an output (R274). -/
def State.emit (s : State) (o : Output) : State := { s with out := s.out ++ [o] }

/-! ### General registers -/

/-- The word register with number `c` (R20). -/
def regOfCode (c : BitVec 3) : Reg16 :=
  match c.toNat with
  | 0 => .ax
  | 1 => .cx
  | 2 => .dx
  | 3 => .bx
  | 4 => .sp
  | 5 => .bp
  | 6 => .si
  | _ => .di

/-- `R[i]` (R12). -/
def Regs.get (r : Regs) : Reg16 → Word
  | .ax => r.ax
  | .cx => r.cx
  | .dx => r.dx
  | .bx => r.bx
  | .sp => r.sp
  | .bp => r.bp
  | .si => r.si
  | .di => r.di

/-- `R[i] <- v` (R12). -/
def Regs.set (r : Regs) (i : Reg16) (v : Word) : Regs :=
  match i with
  | .ax => { r with ax := v }
  | .cx => { r with cx := v }
  | .dx => { r with dx := v }
  | .bx => { r with bx := v }
  | .sp => { r with sp := v }
  | .bp => { r with bp := v }
  | .si => { r with si := v }
  | .di => { r with di := v }

/-- Is a byte code the high half of its parent word (R21: `c ≥ 4`)? -/
def isHighHalf (c : BitVec 3) : Bool := c.getLsbD 2

/-- The word register a code touches (R20, R21): number `c` when wide, `c mod 4` when not. -/
def parentReg (wide : Bool) (c : BitVec 3) : Reg16 :=
  regOfCode (if wide then c else c &&& 0b011#3)

/-- The logical register identity `8·w + c` (R22, D16): 0 to 7 are `al` to `bh`, 8 to 15 are `ax` to `di`. The accessors
below take the pair `(w, c)` it packs. -/
def registerIdentity (wide : Bool) (c : BitVec 3) : BitVec 4 := BitVec.ofBool wide ++ c

/-- A byte as an unsigned 16-bit value (R11, R24: nothing of the other half appears in it). -/
def zextByte (b : Byte) : Word := b.setWidth 16

/-- `RegRead(w, c)` (R24): a byte value is zero-extended. -/
def Regs.read (r : Regs) (wide : Bool) (c : BitVec 3) : Word :=
  let v := r.get (parentReg wide c)
  if wide then v
  else if isHighHalf c then zextByte (hiByte v)
  else zextByte (loByte v)

/-- `RegWrite(w, c, v)` (R25): a byte write keeps the other half of its parent word. -/
def Regs.write (r : Regs) (wide : Bool) (c : BitVec 3) (v : Word) : Regs :=
  let p := parentReg wide c
  if wide then r.set p v
  else if isHighHalf c then r.set p (mkWord (loByte v) (loByte (r.get p)))
  else r.set p (mkWord (hiByte (r.get p)) (loByte v))

/-! ### The Byte Store -/

/-- What an unlisted address reads as: 0x00 (R61, R40). -/
def Memory.fill : Byte := 0x00#8

/-- The canonical form from the address `lo` on: addresses strictly rising and below 2^20, no cell that holds what an
unlisted address reads as. -/
def Memory.wfFrom : Nat → Memory → Bool
  | _, [] => true
  | lo, (a, v) :: rest => decide (lo ≤ a) && decide (a < Config.memSize) && v != Memory.fill && Memory.wfFrom (a + 1) rest

/-- The canonical form of the store. -/
def Memory.wf (m : Memory) : Bool := Memory.wfFrom 0 m

/-- `M[a]` (R12). -/
def Memory.read : Memory → Nat → Byte
  | [], _ => Memory.fill
  | (b, v) :: rest, a => if a = b then v else Memory.read rest a

/-- `M[a] <- v` (R12), in the canonical form. -/
def Memory.write : Memory → Nat → Byte → Memory
  | [], a, v => if v = Memory.fill then [] else [(a, v)]
  | (b, u) :: rest, a, v =>
    if a < b then (if v = Memory.fill then (b, u) :: rest else (a, v) :: (b, u) :: rest)
    else if a = b then (if v = Memory.fill then rest else (a, v) :: rest)
    else (b, u) :: Memory.write rest a v

/-- Bytes stored at consecutive addresses from `a` on. -/
def Memory.writeBytes (m : Memory) (a : Nat) : List Byte → Memory
  | [] => m
  | b :: bs => Memory.writeBytes (m.write a b) (a + 1) bs

/-- The store with an image from the address `a` on and 0x00 elsewhere (R61, R340). -/
def Memory.ofImage (a : Nat) : List Byte → Memory
  | [] => []
  | b :: bs => if b = Memory.fill then Memory.ofImage (a + 1) bs else (a, b) :: Memory.ofImage (a + 1) bs

/-- `MemRead(addr, n)` (R63), `n` = 2 when wide, else 1, little-endian (R62); a byte is zero-extended. Its domain is
`addr + n ≤ 2^20`; a data access has an effective address (R66), so the second byte of a word is at most at 0x10000
(R67), and no access leaves the store (`ea_in_store`, Laws/Memory.lean; log entry 16). -/
def memRead (m : Memory) (addr : Nat) (wide : Bool) : Word :=
  if wide then mkWord (m.read (addr + 1)) (m.read addr) else zextByte (m.read addr)

/-- `MemWrite(addr, n, v)` (R64), `n` = 2 when wide, else 1: the low byte at `addr`, the high byte at `addr + 1`. Its
domain is that of `memRead`. -/
def memWrite (m : Memory) (addr : Nat) (wide : Bool) (v : Word) : Memory :=
  if wide then (m.write addr (loByte v)).write (addr + 1) (hiByte v) else m.write addr (loByte v)

/-- How many bytes a data access of this width touches (R70). -/
def accessLen (wide : Bool) : Nat := if wide then 2 else 1

/-! ### Effective addresses -/

/-- The sum of a base pair's registers (R104). -/
def pairSum (b : BasePair) (r : Regs) : Word :=
  match b with
  | .bxSi => r.bx + r.si
  | .bxDi => r.bx + r.di
  | .bpSi => r.bp + r.si
  | .bpDi => r.bp + r.di
  | .si => r.si
  | .di => r.di
  | .bp => r.bp
  | .bx => r.bx

/-- `EA(m)` (R65): (displacement + base registers) mod 2^16. -/
def ea (r : Regs) (m : EffectiveAddress) : Word :=
  match m.base with
  | none => BitVec.ofInt 16 m.disp
  | some b => pairSum b r + BitVec.ofInt 16 m.disp

/-! ### Fetch and decode at a position -/

/-- The bytes `Fetch(p, 0)`, `Fetch(p, 1)`, … (R68): those from `p` on that lie below `L`, at most six. -/
def fetchWindow (m : Memory) (p L : Nat) : List Byte :=
  (List.range (min Config.maxInsn (L - p))).map fun i => m.read (p + i)

/-- `decode(p, L)` (R143) on the store as it is now (R77). -/
def decodeAt (s : State) (p : Nat) : Except DecodeFailure Instr := decode (fetchWindow s.mem p s.loadedLen)

/-! ### What takes the place of an exception -/

/-- The kind a decode failure records (R300). -/
def failureKind : DecodeFailure → ErrKind
  | .unrecognizedOpcode => .unrecognizedOpcode
  | .truncatedInstruction => .truncatedInstruction

/-- The code a kind has in a model that wants a number (R300, R304, D18). -/
def ErrKind.code : ErrKind → Nat
  | .unrecognizedOpcode => 1
  | .truncatedInstruction => 2
  | .unimplemented => 3

/-- Taking a decode failure at position `p` (R308): `ERR` is written, the engine goes to its terminal error state
(`HaltedError` or `TraceError`), the diagnostic with the content of `ERR` is emitted (R311), and nothing else changes.
There is no handler and no return (R310). -/
def takeFailure (k : DecodeFailure) (p : Nat) (dest : EngineState) (s : State) : State :=
  ((s.setErr ⟨failureKind k, p, none⟩).setEs dest).emit (.diagnostic ⟨failureKind k, p, none⟩)

/-- The refusal of an instruction that has no execution semantics (R268): `ES <- Refused`,
`ERR <- (Unimplemented, ins.address, ins.operation)`, nothing else. `IP` has been advanced by `size` (R266), so
`ins.address` is `IP − size` (log entry 19). -/
def refuseUnimplemented (op : Mnemonic) (size : Nat) (s : State) : State :=
  (s.setErr ⟨.unimplemented, (s.ip - BitVec.ofNat 16 size).toNat, some op⟩).setEs .refused

/-- An instruction without execution semantics in the `Applying` state: the refusal of R268, or under the policy
`skip` of U1 nothing beyond the advance of `IP` that has already happened. -/
def unimplemented (op : Mnemonic) (size : Nat) (s : State) : State :=
  match s.unimplPolicy with
  | .refuse => refuseUnimplemented op size s
  | .skip => s

/-! ### Outcomes in sequence -/

/-- Go on from a next state; a fault or a refusal stands. -/
def andThen (o : Host.Outcome State Fault Refusal) (k : State → Host.Outcome State Fault Refusal) :
    Host.Outcome State Fault Refusal :=
  match o with
  | .next s => k s
  | .fault f => .fault f
  | .refused r => .refused r

end Sys2Proof.Machine
end

