-- ==== Sys2Proof/Machine/Operands.lean ====
section
/-! DEFINITION. Operands: from the encoded fields to the operands and the record of R91 (spec/30_encoding.md R102 to
R111), and the operand accesses `OpRead` and `OpWrite` (spec/45_sequencer.md R263, R264). -/

namespace Sys2Proof

/-! ### From the encoding to the record -/

/-- The r/m operand with its canonical displacement: 8-bit and 16-bit forms signed (R105), a direct address unsigned
(R106). -/
def RmOperand.operand : RmOperand → Operand
  | .reg c => .register c
  | .mem b => .memory ⟨some b, 0⟩
  | .mem8 b disp => .memory ⟨some b, disp.toInt⟩
  | .mem16 b disp => .memory ⟨some b, disp.toInt⟩
  | .direct addr => .memory ⟨none, addr.toNat⟩

/-- The canonical value of an immediate (R108): one byte signed, two bytes unsigned. -/
def Imm.value : Imm → Int
  | .byte v => v.toInt
  | .word v => v.toNat

/-- An immediate that is not relative. -/
def Imm.operand (imm : Imm) : Operand := .immediate (imm.value) false

/-- The accumulator, `Register(0)` (R98, R101): `al` or `ax` by the wide bit. -/
def accumulator : Operand := .register 0b000#3

/-- The direct address of format MA (R101, R106). -/
def directOperand (addr : Word) : Operand := .memory ⟨none, addr.toNat⟩

/-- The destination of format RM (R111). -/
def dstRM (d : Bool) (reg : BitVec 3) (rm : RmOperand) : Operand :=
  if d then .register reg else rm.operand

/-- The source of format RM (R111). -/
def srcRM (d : Bool) (reg : BitVec 3) (rm : RmOperand) : Operand :=
  if d then rm.operand else .register reg

/-- The operands of an instruction, destination first (R91, R94 to R101). -/
def Instr.operands (i : Instr) : List Operand :=
  match i.form with
  | .rm d _ reg rm => [dstRM d reg rm, srcRM d reg rm]
  | .irm _ _ rm imm => [rm.operand, imm.operand]
  | .imv _ rm imm => [rm.operand, imm.operand]
  | .ia _ imm => [accumulator, imm.operand]
  | .ir _ reg imm => [.register reg, imm.operand]
  | .ma t _ addr => if t then [directOperand addr, accumulator] else [accumulator, directOperand addr]
  | .j rel => [.immediate rel.toInt true]

/-- The wide bit; false for format J (R91, R112). -/
def Instr.wide (i : Instr) : Bool :=
  match i.form with
  | .rm _ w _ _ => w
  | .irm _ w _ _ => w
  | .imv w _ _ => w
  | .ia w _ => w
  | .ir w _ _ => w
  | .ma _ w _ => w
  | .j _ => false

end Sys2Proof

namespace Sys2Proof.Machine

/-- The record of R91. -/
def DecodedInstr.record (d : DecodedInstr) : Instruction where
  address := d.address
  size := d.instr.size
  operation := d.instr.mnemonic
  wide := d.instr.wide
  operands := d.instr.operands

/-! ### Operand access -/

/-- `OpRead(o, wide)` (R263): an unsigned value, below 256 when not wide. -/
def opRead (s : State) (wide : Bool) : Operand → Word
  | .register c => s.regs.read wide c
  | .memory m => memRead s.mem (ea s.regs m).toNat wide
  | .immediate v _ => if wide then BitVec.ofInt 16 v else zextByte (BitVec.ofInt 8 v)

/-- `OpWrite(o, wide, v)` (R264). No format has an Immediate destination; the write of one is refused by name. -/
def opWrite (s : State) (wide : Bool) (o : Operand) (v : Word) : Host.Outcome State Fault Refusal :=
  match o with
  | .register c => .next (s.setRegs (s.regs.write wide c v))
  | .memory m => .next (s.setMem (memWrite s.mem (ea s.regs m).toNat wide v))
  | .immediate _ _ => .refused .immediateDestination

end Sys2Proof.Machine
end

