-- ==== Sys2Proof/Machine/Flags.lean ====
section
/-! DEFINITION. The flag law and the effects of `add`, `sub` and `cmp` (spec/42_arith.md R191 to R193). Both flags come
from the 16-bit result, for byte operations too: the byte operands are zero-extended (R193, D13, log entry 9). -/

namespace Sys2Proof.Machine

/-- `ZF` of a 16-bit result (R191). -/
def zeroOf (result16 : Word) : Bool := result16 == 0#16

/-- `SF` of a 16-bit result: bit 15 (R191). -/
def signOf (result16 : Word) : Bool := result16.getLsbD 15

/-- Write both flags from a 16-bit result (R31, R191). -/
def State.flagsFrom (s : State) (result16 : Word) : State := s.setFlags (zeroOf result16) (signOf result16)

/-- `(a + b) mod 2^16` (R191). -/
def addResult (a b : Word) : Word := a + b

/-- `(a − b) mod 2^16` (R191). -/
def subResult (a b : Word) : Word := a - b

/-- Write the destination, then the flags (R267). -/
def storeWithFlags (wide : Bool) (dst : Operand) (result16 : Word) (s : State) : Host.Outcome State Fault Refusal :=
  andThen (opWrite s wide dst result16) fun t => .next (t.flagsFrom result16)

/-- `add` (R191). -/
def addEffect (wide : Bool) (dst src : Operand) (s : State) : Host.Outcome State Fault Refusal :=
  storeWithFlags wide dst (addResult (opRead s wide dst) (opRead s wide src)) s

/-- `sub` (R191). -/
def subEffect (wide : Bool) (dst src : Operand) (s : State) : Host.Outcome State Fault Refusal :=
  storeWithFlags wide dst (subResult (opRead s wide dst) (opRead s wide src)) s

/-- `cmp` (R191): the subtraction, its flags, no operand write. -/
def cmpEffect (wide : Bool) (dst src : Operand) (s : State) : Host.Outcome State Fault Refusal :=
  .next (s.flagsFrom (subResult (opRead s wide dst) (opRead s wide src)))

end Sys2Proof.Machine
end

