-- ==== Sys2Proof/Machine/Arith.lean ====
section
/-! DEFINITION. The arithmetic family (spec/42_arith.md): `add`, `sub` and `cmp` with their effect (R191), `or`, `adc`,
`sbb` and `and` without one (R194), each in the formats RM, IRM and IA. In format RM `d` says which operand is the
destination (R111). -/

namespace Sys2Proof.Machine

/-- `add r/m, reg` and `add reg, r/m` (R200). -/
def execAddRM (d w : Bool) (reg : BitVec 3) (rm : RmOperand) (s : State) : Host.Outcome State Fault Refusal :=
  addEffect w (dstRM d reg rm) (srcRM d reg rm) s

/-- `add r/m, imm` (R201); the sign bit `sx` has already chosen the immediate's length. -/
def execAddIRM (_sx w : Bool) (rm : RmOperand) (imm : Imm) (s : State) : Host.Outcome State Fault Refusal :=
  addEffect w rm.operand imm.operand s

/-- `add acc, imm` (R202). -/
def execAddIA (w : Bool) (imm : Imm) (s : State) : Host.Outcome State Fault Refusal :=
  addEffect w accumulator imm.operand s

/-- `or r/m, reg` and `or reg, r/m` (R203): no execution semantics (R194, R268). -/
def execOrRM (d w : Bool) (reg : BitVec 3) (rm : RmOperand) (s : State) : Host.Outcome State Fault Refusal :=
  .next (unimplemented .or (Instr.size (.orRM d w reg rm)) s)

/-- `or r/m, imm` (R204): no execution semantics (R194, R268). -/
def execOrIRM (sx w : Bool) (rm : RmOperand) (imm : Imm) (s : State) : Host.Outcome State Fault Refusal :=
  .next (unimplemented .or (Instr.size (.orIRM sx w rm imm)) s)

/-- `or acc, imm` (R205): no execution semantics (R194, R268). -/
def execOrIA (w : Bool) (imm : Imm) (s : State) : Host.Outcome State Fault Refusal :=
  .next (unimplemented .or (Instr.size (.orIA w imm)) s)

/-- `adc r/m, reg` and `adc reg, r/m` (R206): no execution semantics (R194, R268). -/
def execAdcRM (d w : Bool) (reg : BitVec 3) (rm : RmOperand) (s : State) : Host.Outcome State Fault Refusal :=
  .next (unimplemented .adc (Instr.size (.adcRM d w reg rm)) s)

/-- `adc r/m, imm` (R207): no execution semantics (R194, R268). -/
def execAdcIRM (sx w : Bool) (rm : RmOperand) (imm : Imm) (s : State) : Host.Outcome State Fault Refusal :=
  .next (unimplemented .adc (Instr.size (.adcIRM sx w rm imm)) s)

/-- `adc acc, imm` (R208): no execution semantics (R194, R268). -/
def execAdcIA (w : Bool) (imm : Imm) (s : State) : Host.Outcome State Fault Refusal :=
  .next (unimplemented .adc (Instr.size (.adcIA w imm)) s)

/-- `sbb r/m, reg` and `sbb reg, r/m` (R209): no execution semantics (R194, R268). -/
def execSbbRM (d w : Bool) (reg : BitVec 3) (rm : RmOperand) (s : State) : Host.Outcome State Fault Refusal :=
  .next (unimplemented .sbb (Instr.size (.sbbRM d w reg rm)) s)

/-- `sbb r/m, imm` (R210): no execution semantics (R194, R268). -/
def execSbbIRM (sx w : Bool) (rm : RmOperand) (imm : Imm) (s : State) : Host.Outcome State Fault Refusal :=
  .next (unimplemented .sbb (Instr.size (.sbbIRM sx w rm imm)) s)

/-- `sbb acc, imm` (R211): no execution semantics (R194, R268). -/
def execSbbIA (w : Bool) (imm : Imm) (s : State) : Host.Outcome State Fault Refusal :=
  .next (unimplemented .sbb (Instr.size (.sbbIA w imm)) s)

/-- `and r/m, reg` and `and reg, r/m` (R212): no execution semantics (R194, R268). -/
def execAndRM (d w : Bool) (reg : BitVec 3) (rm : RmOperand) (s : State) : Host.Outcome State Fault Refusal :=
  .next (unimplemented .and (Instr.size (.andRM d w reg rm)) s)

/-- `and r/m, imm` (R213): no execution semantics (R194, R268). -/
def execAndIRM (sx w : Bool) (rm : RmOperand) (imm : Imm) (s : State) : Host.Outcome State Fault Refusal :=
  .next (unimplemented .and (Instr.size (.andIRM sx w rm imm)) s)

/-- `and acc, imm` (R214): no execution semantics (R194, R268). -/
def execAndIA (w : Bool) (imm : Imm) (s : State) : Host.Outcome State Fault Refusal :=
  .next (unimplemented .and (Instr.size (.andIA w imm)) s)

/-- `sub r/m, reg` and `sub reg, r/m` (R215). -/
def execSubRM (d w : Bool) (reg : BitVec 3) (rm : RmOperand) (s : State) : Host.Outcome State Fault Refusal :=
  subEffect w (dstRM d reg rm) (srcRM d reg rm) s

/-- `sub r/m, imm` (R216); the sign bit `sx` has already chosen the immediate's length. -/
def execSubIRM (_sx w : Bool) (rm : RmOperand) (imm : Imm) (s : State) : Host.Outcome State Fault Refusal :=
  subEffect w rm.operand imm.operand s

/-- `sub acc, imm` (R217). -/
def execSubIA (w : Bool) (imm : Imm) (s : State) : Host.Outcome State Fault Refusal :=
  subEffect w accumulator imm.operand s

/-- `cmp r/m, reg` and `cmp reg, r/m` (R218). -/
def execCmpRM (d w : Bool) (reg : BitVec 3) (rm : RmOperand) (s : State) : Host.Outcome State Fault Refusal :=
  cmpEffect w (dstRM d reg rm) (srcRM d reg rm) s

/-- `cmp r/m, imm` (R219); the sign bit `sx` has already chosen the immediate's length. -/
def execCmpIRM (_sx w : Bool) (rm : RmOperand) (imm : Imm) (s : State) : Host.Outcome State Fault Refusal :=
  cmpEffect w rm.operand imm.operand s

/-- `cmp acc, imm` (R220). -/
def execCmpIA (w : Bool) (imm : Imm) (s : State) : Host.Outcome State Fault Refusal :=
  cmpEffect w accumulator imm.operand s

end Sys2Proof.Machine
end

