-- ==== Sys2Proof/Machine/Branch.lean ====
section
/-! DEFINITION. The conditional jumps and loops (spec/43_branch.md): `jnz` with its effect (R231, R238), the other
nineteen without one (R232, R268). -/

namespace Sys2Proof.Machine

/-- `jo rel8` (R233): no execution semantics (R232, R268). -/
def execJo (rel : Byte) (s : State) : Host.Outcome State Fault Refusal :=
  .next (unimplemented .jo (Instr.size (.jo rel)) s)

/-- `jno rel8` (R234): no execution semantics (R232, R268). -/
def execJno (rel : Byte) (s : State) : Host.Outcome State Fault Refusal :=
  .next (unimplemented .jno (Instr.size (.jno rel)) s)

/-- `jb rel8` (R235): no execution semantics (R232, R268). -/
def execJb (rel : Byte) (s : State) : Host.Outcome State Fault Refusal :=
  .next (unimplemented .jb (Instr.size (.jb rel)) s)

/-- `jnb rel8` (R236): no execution semantics (R232, R268). -/
def execJnb (rel : Byte) (s : State) : Host.Outcome State Fault Refusal :=
  .next (unimplemented .jnb (Instr.size (.jnb rel)) s)

/-- `je rel8` (R237): no execution semantics (R232, R268). -/
def execJe (rel : Byte) (s : State) : Host.Outcome State Fault Refusal :=
  .next (unimplemented .je (Instr.size (.je rel)) s)

/-- `jnz rel8` (R231, R238): `IP` already holds the address after the jump; the offset is added to it when `ZF = 0`. -/
def execJnz (rel : Byte) (s : State) : Host.Outcome State Fault Refusal :=
  .next (if s.zf then s else s.setIp (s.ip + rel.signExtend 16))

/-- `jbe rel8` (R239): no execution semantics (R232, R268). -/
def execJbe (rel : Byte) (s : State) : Host.Outcome State Fault Refusal :=
  .next (unimplemented .jbe (Instr.size (.jbe rel)) s)

/-- `ja rel8` (R240): no execution semantics (R232, R268). -/
def execJa (rel : Byte) (s : State) : Host.Outcome State Fault Refusal :=
  .next (unimplemented .ja (Instr.size (.ja rel)) s)

/-- `js rel8` (R241): no execution semantics (R232, R268). -/
def execJs (rel : Byte) (s : State) : Host.Outcome State Fault Refusal :=
  .next (unimplemented .js (Instr.size (.js rel)) s)

/-- `jns rel8` (R242): no execution semantics (R232, R268). -/
def execJns (rel : Byte) (s : State) : Host.Outcome State Fault Refusal :=
  .next (unimplemented .jns (Instr.size (.jns rel)) s)

/-- `jp rel8` (R243): no execution semantics (R232, R268). -/
def execJp (rel : Byte) (s : State) : Host.Outcome State Fault Refusal :=
  .next (unimplemented .jp (Instr.size (.jp rel)) s)

/-- `jnp rel8` (R244): no execution semantics (R232, R268). -/
def execJnp (rel : Byte) (s : State) : Host.Outcome State Fault Refusal :=
  .next (unimplemented .jnp (Instr.size (.jnp rel)) s)

/-- `jl rel8` (R245): no execution semantics (R232, R268). -/
def execJl (rel : Byte) (s : State) : Host.Outcome State Fault Refusal :=
  .next (unimplemented .jl (Instr.size (.jl rel)) s)

/-- `jnl rel8` (R246): no execution semantics (R232, R268). -/
def execJnl (rel : Byte) (s : State) : Host.Outcome State Fault Refusal :=
  .next (unimplemented .jnl (Instr.size (.jnl rel)) s)

/-- `jle rel8` (R247): no execution semantics (R232, R268). -/
def execJle (rel : Byte) (s : State) : Host.Outcome State Fault Refusal :=
  .next (unimplemented .jle (Instr.size (.jle rel)) s)

/-- `jg rel8` (R248): no execution semantics (R232, R268). -/
def execJg (rel : Byte) (s : State) : Host.Outcome State Fault Refusal :=
  .next (unimplemented .jg (Instr.size (.jg rel)) s)

/-- `loopnz rel8` (R249): no execution semantics (R232, R268). -/
def execLoopnz (rel : Byte) (s : State) : Host.Outcome State Fault Refusal :=
  .next (unimplemented .loopnz (Instr.size (.loopnz rel)) s)

/-- `loopz rel8` (R250): no execution semantics (R232, R268). -/
def execLoopz (rel : Byte) (s : State) : Host.Outcome State Fault Refusal :=
  .next (unimplemented .loopz (Instr.size (.loopz rel)) s)

/-- `loop rel8` (R251): no execution semantics (R232, R268). -/
def execLoop (rel : Byte) (s : State) : Host.Outcome State Fault Refusal :=
  .next (unimplemented .loop (Instr.size (.loop rel)) s)

/-- `jcxz rel8` (R252): no execution semantics (R232, R268). -/
def execJcxz (rel : Byte) (s : State) : Host.Outcome State Fault Refusal :=
  .next (unimplemented .jcxz (Instr.size (.jcxz rel)) s)

end Sys2Proof.Machine
end

