-- ==== Sys2Proof/Machine/Mov.lean ====
section
/-! DEFINITION. The `mov` instructions (spec/41_mov.md R180 to R185). -/

namespace Sys2Proof.Machine

/-- The common semantics (R180): copy the source's value into the destination; no flag is touched. -/
def movEffect (wide : Bool) (dst src : Operand) (s : State) : Host.Outcome State Fault Refusal :=
  opWrite s wide dst (opRead s wide src)

/-- `mov r/m, reg` and `mov reg, r/m` (R181). -/
def execMovRM (d w : Bool) (reg : BitVec 3) (rm : RmOperand) (s : State) : Host.Outcome State Fault Refusal :=
  movEffect w (dstRM d reg rm) (srcRM d reg rm) s

/-- `mov r/m, imm` (R182). -/
def execMovIMV (w : Bool) (rm : RmOperand) (imm : Imm) (s : State) : Host.Outcome State Fault Refusal :=
  movEffect w rm.operand imm.operand s

/-- `mov reg, imm` (R183). -/
def execMovIR (w : Bool) (reg : BitVec 3) (imm : Imm) (s : State) : Host.Outcome State Fault Refusal :=
  movEffect w (.register reg) imm.operand s

/-- `mov acc, [addr]` (R184). -/
def execMovLoad (w : Bool) (addr : Word) (s : State) : Host.Outcome State Fault Refusal :=
  movEffect w accumulator (directOperand addr) s

/-- `mov [addr], acc` (R185). -/
def execMovStore (w : Bool) (addr : Word) (s : State) : Host.Outcome State Fault Refusal :=
  movEffect w (directOperand addr) accumulator s

end Sys2Proof.Machine
end

