-- ==== Sys2Proof/Machine/Dispatch.lean ====
section
/-! DEFINITION. The dispatch of the effect in the `Applying` state (spec/45_sequencer.md R267): one arm for each
constructor of Instr, which is one row of spec/opcode_table.json. In the arms of format IRM `sx` is the sign bit. -/

namespace Sys2Proof.Machine

def exec (i : Instr) (s : State) : Host.Outcome State Fault Refusal :=
  match i with
  | .movRM d w reg rm => Sys2Proof.Machine.execMovRM d w reg rm s
  | .movIMV w rm imm => Sys2Proof.Machine.execMovIMV w rm imm s
  | .movIR w reg imm => Sys2Proof.Machine.execMovIR w reg imm s
  | .movLoad w addr => Sys2Proof.Machine.execMovLoad w addr s
  | .movStore w addr => Sys2Proof.Machine.execMovStore w addr s
  | .addRM d w reg rm => Sys2Proof.Machine.execAddRM d w reg rm s
  | .addIRM sx w rm imm => Sys2Proof.Machine.execAddIRM sx w rm imm s
  | .addIA w imm => Sys2Proof.Machine.execAddIA w imm s
  | .orRM d w reg rm => Sys2Proof.Machine.execOrRM d w reg rm s
  | .orIRM sx w rm imm => Sys2Proof.Machine.execOrIRM sx w rm imm s
  | .orIA w imm => Sys2Proof.Machine.execOrIA w imm s
  | .adcRM d w reg rm => Sys2Proof.Machine.execAdcRM d w reg rm s
  | .adcIRM sx w rm imm => Sys2Proof.Machine.execAdcIRM sx w rm imm s
  | .adcIA w imm => Sys2Proof.Machine.execAdcIA w imm s
  | .sbbRM d w reg rm => Sys2Proof.Machine.execSbbRM d w reg rm s
  | .sbbIRM sx w rm imm => Sys2Proof.Machine.execSbbIRM sx w rm imm s
  | .sbbIA w imm => Sys2Proof.Machine.execSbbIA w imm s
  | .andRM d w reg rm => Sys2Proof.Machine.execAndRM d w reg rm s
  | .andIRM sx w rm imm => Sys2Proof.Machine.execAndIRM sx w rm imm s
  | .andIA w imm => Sys2Proof.Machine.execAndIA w imm s
  | .subRM d w reg rm => Sys2Proof.Machine.execSubRM d w reg rm s
  | .subIRM sx w rm imm => Sys2Proof.Machine.execSubIRM sx w rm imm s
  | .subIA w imm => Sys2Proof.Machine.execSubIA w imm s
  | .cmpRM d w reg rm => Sys2Proof.Machine.execCmpRM d w reg rm s
  | .cmpIRM sx w rm imm => Sys2Proof.Machine.execCmpIRM sx w rm imm s
  | .cmpIA w imm => Sys2Proof.Machine.execCmpIA w imm s
  | .jo rel => Sys2Proof.Machine.execJo rel s
  | .jno rel => Sys2Proof.Machine.execJno rel s
  | .jb rel => Sys2Proof.Machine.execJb rel s
  | .jnb rel => Sys2Proof.Machine.execJnb rel s
  | .je rel => Sys2Proof.Machine.execJe rel s
  | .jnz rel => Sys2Proof.Machine.execJnz rel s
  | .jbe rel => Sys2Proof.Machine.execJbe rel s
  | .ja rel => Sys2Proof.Machine.execJa rel s
  | .js rel => Sys2Proof.Machine.execJs rel s
  | .jns rel => Sys2Proof.Machine.execJns rel s
  | .jp rel => Sys2Proof.Machine.execJp rel s
  | .jnp rel => Sys2Proof.Machine.execJnp rel s
  | .jl rel => Sys2Proof.Machine.execJl rel s
  | .jnl rel => Sys2Proof.Machine.execJnl rel s
  | .jle rel => Sys2Proof.Machine.execJle rel s
  | .jg rel => Sys2Proof.Machine.execJg rel s
  | .loopnz rel => Sys2Proof.Machine.execLoopnz rel s
  | .loopz rel => Sys2Proof.Machine.execLoopz rel s
  | .loop rel => Sys2Proof.Machine.execLoop rel s
  | .jcxz rel => Sys2Proof.Machine.execJcxz rel s

end Sys2Proof.Machine
end

