-- ==== Sys2Proof/Machine/Render.lean ====
section
/-! DEFINITION. `render : Instruction -> String` (spec/46_text_rendering.md R280 to R289): a pure function of the
decoded record that reads neither the machine nor the address. The details of the text are the spec's decision D17
(log entry 14). -/

namespace Sys2Proof.Machine

/-- The lowercase name of an operation (R281). -/
def mnemonicText : Mnemonic → String
  | .mov => "mov"
  | .add => "add"
  | .or => "or"
  | .adc => "adc"
  | .sbb => "sbb"
  | .and => "and"
  | .sub => "sub"
  | .cmp => "cmp"
  | .jo => "jo"
  | .jno => "jno"
  | .jb => "jb"
  | .jnb => "jnb"
  | .je => "je"
  | .jnz => "jnz"
  | .jbe => "jbe"
  | .ja => "ja"
  | .js => "js"
  | .jns => "jns"
  | .jp => "jp"
  | .jnp => "jnp"
  | .jl => "jl"
  | .jnl => "jnl"
  | .jle => "jle"
  | .jg => "jg"
  | .loopnz => "loopnz"
  | .loopz => "loopz"
  | .loop => "loop"
  | .jcxz => "jcxz"

/-- The name of a word register (R20). -/
def wordRegText : Reg16 → String
  | .ax => "ax"
  | .cx => "cx"
  | .dx => "dx"
  | .bx => "bx"
  | .sp => "sp"
  | .bp => "bp"
  | .si => "si"
  | .di => "di"

/-- The name of a byte register (R21). -/
def byteRegText (c : BitVec 3) : String :=
  match c.toNat with
  | 0 => "al"
  | 1 => "cl"
  | 2 => "dl"
  | 3 => "bl"
  | 4 => "ah"
  | 5 => "ch"
  | 6 => "dh"
  | _ => "bh"

/-- A register operand (R282): its width is the instruction's. -/
def registerText (wide : Bool) (c : BitVec 3) : String :=
  if wide then wordRegText (regOfCode c) else byteRegText c

/-- The decimal numeral of a natural number, no leading zeros. -/
def decNat (n : Nat) : String := String.ofList (Nat.toDigits 10 n)

/-- The decimal numeral of an integer: a leading `-` when negative, no plus sign (R283). -/
def decInt (v : Int) : String := if v < 0 then "-" ++ decNat v.natAbs else decNat v.natAbs

/-- A base pair (R284). -/
def pairText : BasePair → String
  | .bxSi => "bx + si"
  | .bxDi => "bx + di"
  | .bpSi => "bp + si"
  | .bpDi => "bp + di"
  | .si => "si"
  | .di => "di"
  | .bp => "bp"
  | .bx => "bx"

/-- A memory operand (R284). -/
def memoryText (m : EffectiveAddress) : String :=
  match m.base with
  | none => "[" ++ decInt m.disp ++ "]"
  | some b =>
    if m.disp = 0 then "[" ++ pairText b ++ "]"
    else if 0 < m.disp then "[" ++ pairText b ++ " + " ++ decNat m.disp.natAbs ++ "]"
    else "[" ++ pairText b ++ " - " ++ decNat m.disp.natAbs ++ "]"

/-- A relative operand (R286): `$` and the signed distance from the jump itself, `rel + 2`. -/
def relativeText (rel : Int) : String :=
  let k := rel + 2
  if k < 0 then "$-" ++ decNat k.natAbs else "$+" ++ decNat k.natAbs

/-- Is the operand a register (R285)? -/
def isRegisterOperand : Operand → Bool
  | .register _ => true
  | .memory _ => false
  | .immediate _ _ => false

/-- The size keyword before a memory operand (R285): only when no operand is a register. -/
def sizeKeyword (ins : Instruction) : String :=
  if ins.operands.any isRegisterOperand then "" else if ins.wide then "word " else "byte "

/-- One operand of an instruction (R282 to R286). -/
def operandText (ins : Instruction) : Operand → String
  | .register c => registerText ins.wide c
  | .memory m => sizeKeyword ins ++ memoryText m
  | .immediate v true => relativeText v
  | .immediate v false => decInt v

/-- The operands, a comma and a space between two of them (R280, R287). -/
def operandsText (ins : Instruction) : List Operand → String
  | [] => ""
  | [o] => operandText ins o
  | o :: p :: rest => operandText ins o ++ ", " ++ operandsText ins (p :: rest)

/-- The rendered line (R280): the mnemonic, one space, the operands. -/
def render (ins : Instruction) : String := mnemonicText ins.operation ++ " " ++ operandsText ins ins.operands

end Sys2Proof.Machine
end

