-- ==== Sys2Proof/Machine/Engine.lean ====
section
/-! DEFINITION. The Execution Engine (spec/45_sequencer.md): the transitions of the Execute state machine (R262) and of
the Trace loop (R272), and the macro step (R270). -/

namespace Sys2Proof.Machine

/-- The mode an engine state belongs to (R33, R260). -/
def EngineState.mode : EngineState → Mode
  | .fetching | .decoded _ | .applying _ | .haltedNormal | .haltedError | .refused => .execute
  | .traceFetching | .traceDone | .traceError => .trace

/-- `MODE` (R37). -/
def State.mode (s : State) : Mode := s.es.mode

/-- The five terminal values of `ES` (R33, R275). -/
def EngineState.terminal : EngineState → Bool
  | .haltedNormal | .haltedError | .refused | .traceDone | .traceError => true
  | .fetching | .decoded _ | .applying _ | .traceFetching => false

/-- `Fetching` (R265): decode at `IP`; a success carries the instruction to `Decoded`, a failure halts the run in
error. -/
def fetchDecode (s : State) : State :=
  match decodeAt s s.ip.toNat with
  | .ok i => s.setEs (.decoded ⟨s.ip.toNat, i⟩)
  | .error k => takeFailure k s.ip.toNat .haltedError s

/-- `Decoded(ins)` (R266): emit the rendered line, advance `IP` by the size, enter `Applying(ins)`. -/
def enterApplying (d : DecodedInstr) (s : State) : State :=
  ((s.emit (.line (render d.record))).setIp (s.ip + BitVec.ofNat 16 d.instr.size)).setEs (.applying d)

/-- The final report (R271). -/
def finalReport (s : State) : Output := .report s.regs s.ip s.zf s.sf

/-- What follows the effect (R269): an instruction that was refused stays so; else `IP ≥ L` ends the run normally with
the final report, and any other `IP` is fetched next. -/
def concludeApplying (s : State) : State :=
  match s.es with
  | .refused => s
  | _ =>
    if s.loadedLen ≤ s.ip.toNat then (s.emit (finalReport s)).setEs .haltedNormal
    else s.setEs .fetching

/-- `Applying(ins)` (R267 to R269): the effect, then what follows it. -/
def applyInstr (d : DecodedInstr) (s : State) : Host.Outcome State Fault Refusal :=
  andThen (exec d.instr s) fun t => .next (concludeApplying t)

/-- `TraceFetching` (R272). `CUR > L` cannot occur; it would fail to decode as a position beyond `L` does (R161 a). -/
def traceFetch (s : State) : State :=
  if s.cur = s.loadedLen then s.setEs .traceDone
  else
    match decodeAt s s.cur with
    | .ok i => (s.emit (.line (render (DecodedInstr.record ⟨s.cur, i⟩)))).setCur (s.cur + i.size)
    | .error k => takeFailure k s.cur .traceError s

/-- One transition of the state machines (R262, R272). A terminal state has none: it stays as it is (R271, log
entry 3). -/
def transition (s : State) : Host.Outcome State Fault Refusal :=
  match s.es with
  | .fetching => .next (fetchDecode s)
  | .decoded d => .next (enterApplying d s)
  | .applying d => applyInstr d s
  | .traceFetching => .next (traceFetch s)
  | .haltedNormal | .haltedError | .refused | .traceDone | .traceError => .next s

/-- The macro step in `Fetching` (R270). -/
def execStep (s : State) : Host.Outcome State Fault Refusal :=
  match decodeAt s s.ip.toNat with
  | .error k => .next (takeFailure k s.ip.toNat .haltedError s)
  | .ok i => applyInstr ⟨s.ip.toNat, i⟩ (enterApplying ⟨s.ip.toNat, i⟩ s)

/-- The step the host runs: a macro step (R270); in `Decoded` and `Applying`, which no step ends in, the rest of it;
in Trace mode one transition of the Trace loop. -/
def macroStep (s : State) : Host.Outcome State Fault Refusal :=
  match s.es with
  | .fetching => execStep s
  | .decoded d => applyInstr d (enterApplying d s)
  | .applying d => applyInstr d s
  | .traceFetching => .next (traceFetch s)
  | .haltedNormal | .haltedError | .refused | .traceDone | .traceError => .next s

end Sys2Proof.Machine
end

