-- ==== Sys2Proof/Machine/Reset.lean ====
section
/-! DEFINITION. Reset with its arguments (spec/70_reset_and_hazards.md R340): the creation of a run. -/

namespace Sys2Proof.Machine

/-- The first engine state of a mode (R40). -/
def Mode.initial : Mode → EngineState
  | .execute => .fetching
  | .trace => .traceFetching

/-- The longest image a mode takes (R7, R340). -/
def Mode.maxLen : Mode → Nat
  | .execute => Config.executeMaxLen
  | .trace => Config.memSize

/-- Reset (R340): the state of R40 for an image and a mode, or a refusal that creates no run. The policy is
`UNIMPL_POLICY` of U1; its default is `refuse`. -/
def boot (image : List Byte) (mode : Mode) (policy : UnimplPolicy) : Host.Outcome State Fault Refusal :=
  if Config.memSize < image.length then .refused .imageTooLong
  else if mode.maxLen < image.length then .refused .executeImageTooLong
  else
    .next { State.reset with
      mem := Memory.ofImage 0 image
      es := mode.initial
      loadedLen := image.length
      unimplPolicy := policy }

end Sys2Proof.Machine
end

