-- ==== Sys2Proof/Machine/Step.lean ====
section
/-! DEFINITION. The step and the host's way to place one instruction; both only call Machine/Engine.lean, Machine/Ops.lean
and Decode.lean. -/

namespace Sys2Proof.Machine

/-- One step (R270, R272). -/
def step (s : State) : Host.Outcome State Fault Refusal := macroStep s

/-- The state with one instruction, given as a word of spec/opcode_table.json and zeros after it, at `IP`, inside the
loaded program, and the engine about to fetch in Execute mode (log entry 11). The load of a whole image is `boot`. -/
def State.withFetchWord (s : State) (nbits w : Nat) : State :=
  { s with
    mem := s.mem.writeBytes s.ip.toNat (tableBytes nbits w)
    loadedLen := max s.loadedLen (s.ip.toNat + Config.maxInsn)
    es := .fetching }

end Sys2Proof.Machine
end

