-- ==== Sys2Proof/Safety.lean ====
section
/-! DEFINITION. What counts as a safe run, in the terms claims use: the ends of a run (spec/45_sequencer.md R275), the
invariant every state of a run has (spec/70_reset_and_hazards.md R351 with R33 to R35), the terms a frame is
stated in, and the states a run reaches. -/

namespace Sys2Proof.Machine

/-- The run has ended (R275). -/
def State.ended (s : State) : Bool := s.es.terminal

/-- The run has ended successfully (R275). -/
def State.endedWell (s : State) : Bool :=
  match s.es with
  | .haltedNormal | .traceDone => true
  | .fetching | .decoded _ | .applying _ | .haltedError | .refused | .traceFetching | .traceError => false

/-- The run is safe so far: it has met neither a decode failure nor a refusal. -/
def State.safe (s : State) : Bool :=
  match s.es with
  | .haltedError | .refused | .traceError => false
  | .fetching | .decoded _ | .applying _ | .haltedNormal | .traceFetching | .traceDone => true

/-- `IP` can be fetched at: inside the loaded program, or at 0 of an empty one (R351, R265). -/
def State.ipFetchable (s : State) : Prop := s.ip.toNat < s.loadedLen ∨ (s.loadedLen = 0 ∧ s.ip = 0#16)

/-- What holds of `ERR`, `IP` and `CUR` in each engine state (R351 for the five ends). -/
def State.esInv (s : State) : Prop :=
  match s.es with
  | .fetching => s.err = none ∧ s.ipFetchable
  | .decoded d => s.err = none ∧ d.address = s.ip.toNat ∧ decodeAt s d.address = .ok d.instr
  | .applying d => s.err = none ∧ d.address < 2 ^ 16 ∧ s.ip = BitVec.ofNat 16 (d.address + d.instr.size)
  | .haltedNormal => s.err = none ∧ s.loadedLen ≤ s.ip.toNat
  | .haltedError => (∃ k, s.err = some ⟨failureKind k, s.ip.toNat, none⟩) ∧ s.ipFetchable
  | .refused =>
    ∃ (address size : Nat) (op : Mnemonic),
      s.err = some ⟨.unimplemented, address, some op⟩ ∧ op.executable = false ∧
      Config.minInsn ≤ size ∧ size ≤ Config.maxInsn ∧ address < 2 ^ 16 ∧ s.ip = BitVec.ofNat 16 (address + size)
  | .traceFetching => s.err = none ∧ s.cur ≤ s.loadedLen
  | .traceDone => s.err = none ∧ s.cur = s.loadedLen
  | .traceError => (∃ k, s.err = some ⟨failureKind k, s.cur, none⟩) ∧ s.cur < s.loadedLen

/-- The invariant of the machine: the store is in canonical form, the loaded length is one a reset accepts (R340),
and the control state is consistent. -/
def State.Inv (s : State) : Prop :=
  s.mem.wf = true ∧ s.loadedLen ≤ s.mode.maxLen ∧ s.esInv

/-! ### What an instruction leaves alone -/

/-- Do two register names share a bit (R21)? They do when they touch one word register, unless both are bytes and are
its two halves. -/
def namesOverlap (wide : Bool) (c : BitVec 3) (wide' : Bool) (c' : BitVec 3) : Bool :=
  parentReg wide c == parentReg wide' c' && (wide || wide' || c == c')

/-- Every register name that shares no bit with `(wide, c)` reads as before (R25): word registers and byte registers
alike. -/
def regsSameExcept (r r' : Regs) (wide : Bool) (c : BitVec 3) : Prop :=
  ∀ wide' c', namesOverlap wide c wide' c' = false → r'.read wide' c' = r.read wide' c'

/-- Every byte outside the `accessLen wide` bytes from the effective address `a` on reads as before (R64). -/
def memSameOutside (m m' : Memory) (a : Word) (wide : Bool) : Prop :=
  ∀ x, x < a.toNat ∨ a.toNat + accessLen wide ≤ x → m'.read x = m.read x

/-- The states a run reaches: from a reset with any arguments it accepts, by steps. -/
inductive Reachable : State → Prop where
  | boot (image : List Byte) (mode : Mode) (policy : UnimplPolicy) (s : State)
      (h : Machine.boot image mode policy = .next s) : Reachable s
  | step (s t : State) (hs : Reachable s) (h : Machine.step s = .next t) : Reachable t

end Sys2Proof.Machine
end

