-- ==== Sys2Proof/Certificates/Slice0/Obligations.lean ====
section
/-! DEFINITION. The statements for the provers, one `def Obligations.<Name> : Prop` each; OBLIGATIONS.json lists them.
Where a statement rests on one of the spec's decisions (D1 to D25) or on a choice of the model, its docstring says so
and names the log entry. -/

open Sys2Proof Sys2Proof.Machine

/-! ### Reset -/

/-- R40, R340 for the arguments that load nothing (log entry 5); the zeros of the registers and flags are the spec's
decision D5 and the start values of `IP`, `CUR` and `ES` its decision D6 (log entry 6). -/
def Obligations.ResetStateHasTheTableOfReset : Prop :=
  (∀ c, State.reset.regs.read true c = 0#16) ∧ State.reset.ip = 0#16 ∧ State.reset.zf = false ∧
  State.reset.sf = false ∧ (∀ a, State.reset.mem.read a = 0x00#8) ∧ State.reset.cur = 0 ∧
  State.reset.es = .fetching ∧ State.reset.err = none ∧ State.reset.loadedLen = 0 ∧ State.reset.out = [] ∧
  boot [] .execute .refuse = .next State.reset

/-- R61: the contents of the store at reset. -/
def Obligations.BootLoadsTheImageAndZeroFill : Prop :=
  ∀ (image : List Byte) (mode : Mode) (policy : UnimplPolicy) (s : State), boot image mode policy = .next s →
    (∀ a, a < image.length → image[a]? = some (s.mem.read a)) ∧
    (∀ a, image.length ≤ a → a < 2 ^ 20 → s.mem.read a = 0x00#8)

/-- R340 with decisions D3 (log entry 17), D5, D6 (log entry 6), and U1 (log entry 2): which arguments reset takes, and what every element other than the store is after it. -/
def Obligations.BootAcceptsExactlyWhatFits : Prop :=
  ∀ (image : List Byte) (mode : Mode) (policy : UnimplPolicy),
    (2 ^ 20 < image.length → boot image mode policy = .refused .imageTooLong) ∧
    (image.length ≤ 2 ^ 20 → 2 ^ 16 < image.length → boot image .execute policy = .refused .executeImageTooLong) ∧
    (image.length ≤ (if mode = .execute then 2 ^ 16 else 2 ^ 20) →
      ∃ s, boot image mode policy = .next s ∧ s.regs = ⟨0, 0, 0, 0, 0, 0, 0, 0⟩ ∧ s.zf = false ∧ s.sf = false ∧
        s.ip = 0#16 ∧ s.cur = 0 ∧ s.err = none ∧ s.out = [] ∧ s.loadedLen = image.length ∧
        s.unimplPolicy = policy ∧ s.es = (if mode = .execute then .fetching else .traceFetching))

/-! ### Registers -/

/-- R24. -/
def Obligations.RegisterReadGivesTheNamedView : Prop :=
  ∀ (r : Regs) (c : BitVec 3),
    r.read true c = r.get (regOfCode c) ∧
    (c.toNat < 4 → (r.read false c).toNat = (r.get (regOfCode c)).toNat % 256) ∧
    (4 ≤ c.toNat → (r.read false c).toNat = (r.get (regOfCode (c - 4#3))).toNat / 256) ∧
    (r.read false c).toNat < 256

/-- R25, on the write of a register operand: the written view, the other half of a byte's parent word, every other
register, and that nothing but the register file changes. -/
def Obligations.RegisterWriteChangesTheNamedViewOnly : Prop :=
  ∀ (s : State) (c : BitVec 3) (v : Word),
    (∃ t, opWrite s true (.register c) v = .next t ∧ t = { s with regs := t.regs } ∧
      t.regs.get (regOfCode c) = v ∧ ∀ j, j ≠ regOfCode c → t.regs.get j = s.regs.get j) ∧
    (c.toNat < 4 → ∃ t, opWrite s false (.register c) v = .next t ∧ t = { s with regs := t.regs } ∧
      (t.regs.get (regOfCode c)).toNat = (s.regs.get (regOfCode c)).toNat / 256 * 256 + v.toNat % 256 ∧
      ∀ j, j ≠ regOfCode c → t.regs.get j = s.regs.get j) ∧
    (4 ≤ c.toNat → ∃ t, opWrite s false (.register c) v = .next t ∧ t = { s with regs := t.regs } ∧
      (t.regs.get (regOfCode (c - 4#3))).toNat =
        v.toNat % 256 * 256 + (s.regs.get (regOfCode (c - 4#3))).toNat % 256 ∧
      ∀ j, j ≠ regOfCode (c - 4#3) → t.regs.get j = s.regs.get j)

/-- R23: the aliasing of words and bytes, in the words of the source's testable properties; `c < 4` names the parent
word and its low byte, `c + 4` its high byte. -/
def Obligations.ByteRegistersAliasTheirParentWord : Prop :=
  ∀ (r : Regs) (c : BitVec 3) (v : Word), c.toNat < 4 →
    ((r.write false c v).read true c = ((r.read false (c + 4#3)) <<< 8) ||| (v &&& 0x00FF#16)) ∧
    ((r.write false (c + 4#3) v).read true c = ((v &&& 0x00FF#16) <<< 8) ||| r.read false c) ∧
    ((r.write false c v).read false (c + 4#3) = r.read false (c + 4#3)) ∧
    ((r.write false (c + 4#3) v).read false c = r.read false c) ∧
    ((r.write true c v).read false c = v &&& 0x00FF#16) ∧
    ((r.write true c v).read false (c + 4#3) = v >>> 8)

/-! ### The Byte Store -/

/-- R63. -/
def Obligations.MemoryReadIsLittleEndian : Prop :=
  ∀ (m : Memory) (a : Nat),
    (a + 1 ≤ 2 ^ 20 → (memRead m a false).toNat = (m.read a).toNat) ∧
    (a + 2 ≤ 2 ^ 20 → (memRead m a true).toNat = (m.read a).toNat + 256 * (m.read (a + 1)).toNat)

/-- R64, on a store in canonical form (`Memory.wf`, which every step keeps: `StepKeepsTheMachineInvariant`). -/
def Obligations.MemoryWriteChangesItsBytesOnly : Prop :=
  ∀ (s : State) (a : Nat) (v : Word), s.mem.wf = true →
    (a + 1 ≤ 2 ^ 20 →
      ∃ t, t = s.setMem (memWrite s.mem a false v) ∧ t.regs = s.regs ∧
        (t.mem.read a).toNat = v.toNat % 256 ∧ ∀ x, x ≠ a → t.mem.read x = s.mem.read x) ∧
    (a + 2 ≤ 2 ^ 20 →
      ∃ t, t = s.setMem (memWrite s.mem a true v) ∧ t.regs = s.regs ∧
        (t.mem.read a).toNat = v.toNat % 256 ∧ (t.mem.read (a + 1)).toNat = v.toNat / 256 ∧
        ∀ x, x ≠ a → x ≠ a + 1 → t.mem.read x = s.mem.read x)

/-- R62: a word written and read as bytes, bytes written and read as a word, and the word the decoder fetches. -/
def Obligations.ByteOrderIsLittleEndianEverywhere : Prop :=
  ∀ (m : Memory) (a : Nat) (v : Word) (lo hi : Byte), m.wf = true → a + 2 ≤ 2 ^ 20 →
    memRead (memWrite m a true v) a false = v &&& 0x00FF#16 ∧
    memRead (memWrite m a true v) (a + 1) false = v >>> 8 ∧
    memRead (memWrite m a true v) a true = v ∧
    memRead ((m.write a lo).write (a + 1) hi) a true = hi ++ lo ∧
    ∀ rest, takeWord (lo :: hi :: rest) = some (hi ++ lo, rest)

/-- R67, decision D7 (log entry 12): a word at the effective address 0xFFFF uses 0xFFFF and 0x10000, and leaves 0 alone. -/
def Obligations.WordAtTopOfSegmentDoesNotWrap : Prop :=
  ∀ (m : Memory) (v : Word), m.wf = true →
    memRead m (0xFFFF#16).toNat true = m.read 0x10000 ++ m.read 0xFFFF ∧
    (memWrite m (0xFFFF#16).toNat true v).read 0x10000 = hiByte v ∧
    (memWrite m (0xFFFF#16).toNat true v).read 0xFFFF = loByte v ∧
    (memWrite m (0xFFFF#16).toNat true v).read 0 = m.read 0

/-- Two stores in canonical form that read alike are the same data: what makes equality of states mean equality of
stores (R36, R61). -/
def Obligations.CanonicalStoresThatReadAlikeAreEqual : Prop :=
  ∀ m m' : Memory, m.wf = true → m'.wf = true → (∀ a, a < 2 ^ 20 → m.read a = m'.read a) → m = m'

/-- R65: the address of a memory operand as a sum of integers reduced once. -/
def Obligations.EffectiveAddressIsTheSumModulo64K : Prop :=
  ∀ (r : Regs) (disp : Int),
    ((ea r ⟨none, disp⟩).toNat : Int) = disp % 65536 ∧
    ((ea r ⟨some .bxSi, disp⟩).toNat : Int) = (r.bx.toNat + r.si.toNat + disp) % 65536 ∧
    ((ea r ⟨some .bxDi, disp⟩).toNat : Int) = (r.bx.toNat + r.di.toNat + disp) % 65536 ∧
    ((ea r ⟨some .bpSi, disp⟩).toNat : Int) = (r.bp.toNat + r.si.toNat + disp) % 65536 ∧
    ((ea r ⟨some .bpDi, disp⟩).toNat : Int) = (r.bp.toNat + r.di.toNat + disp) % 65536 ∧
    ((ea r ⟨some .si, disp⟩).toNat : Int) = (r.si.toNat + disp) % 65536 ∧
    ((ea r ⟨some .di, disp⟩).toNat : Int) = (r.di.toNat + disp) % 65536 ∧
    ((ea r ⟨some .bp, disp⟩).toNat : Int) = (r.bp.toNat + disp) % 65536 ∧
    ((ea r ⟨some .bx, disp⟩).toNat : Int) = (r.bx.toNat + disp) % 65536

/-! ### Operands -/

/-- R263: the value of an operand at each width: a register through the named view, a memory operand through the one or
two bytes at its effective address, low byte first, an immediate reduced modulo 2^16 or 2^8 (the reduction is the spec's own
inference from R109). -/
def Obligations.OperandReadGivesItsValue : Prop :=
  ∀ (s : State),
    (∀ c : BitVec 3, opRead s true (.register c) = s.regs.get (regOfCode c) ∧
      ((opRead s false (.register c)).toNat =
        if c.toNat < 4 then (s.regs.get (regOfCode c)).toNat % 256
        else (s.regs.get (regOfCode (c - 4#3))).toNat / 256)) ∧
    (∀ m : EffectiveAddress,
      (opRead s true (.memory m)).toNat =
        (s.mem.read (ea s.regs m).toNat).toNat + 256 * (s.mem.read ((ea s.regs m).toNat + 1)).toNat ∧
      (opRead s false (.memory m)).toNat = (s.mem.read (ea s.regs m).toNat).toNat) ∧
    (∀ (v : Int) (isRelative : Bool),
      ((opRead s true (.immediate v isRelative)).toNat : Int) = v % 65536 ∧
      ((opRead s false (.immediate v isRelative)).toNat : Int) = v % 256)

/-- R95 to R98, R100, R101, R105, R106, R108, R110 to R112: the operands, destination first, and the wide bit of every
constructor, in the fields of its encoding. `x` is the operand of the `mod` and `rm` fields, `v` the canonical value of
the immediate: one byte signed, two bytes unsigned; displacements are signed, a direct address unsigned. The canonical
integers are decision D15, the order of the operands and the wide bit of format J decision D16 (log entry 20). -/
def Obligations.OperandsOfEachFormatAreItsFields : Prop :=
  (∀ (rm : RmOperand) (x : Operand) (imm : Imm) (v : Int),
    ((∃ c, rm = .reg c ∧ x = .register c) ∨ (∃ b, rm = .mem b ∧ x = .memory ⟨some b, 0⟩) ∨
      (∃ b disp, rm = .mem8 b disp ∧
        x = .memory ⟨some b, if disp.toNat < 128 then disp.toNat else (disp.toNat : Int) - 256⟩) ∨
      (∃ b disp, rm = .mem16 b disp ∧
        x = .memory ⟨some b, if disp.toNat < 32768 then disp.toNat else (disp.toNat : Int) - 65536⟩) ∨
      (∃ addr, rm = .direct addr ∧ x = .memory ⟨none, addr.toNat⟩)) →
    ((∃ b, imm = .byte b ∧ v = if b.toNat < 128 then (b.toNat : Int) else (b.toNat : Int) - 256) ∨
      (∃ w, imm = .word w ∧ v = w.toNat)) →
    ∀ (d s w : Bool) (reg : BitVec 3) (op : ArithOp),
      (Instr.movRM d w reg rm).operands = (if d then [.register reg, x] else [x, .register reg]) ∧
      (op.instrRM d w reg rm).operands = (if d then [.register reg, x] else [x, .register reg]) ∧
      (op.instrIRM s w rm imm).operands = [x, .immediate v false] ∧
      (Instr.movIMV w rm imm).operands = [x, .immediate v false] ∧
      (op.instrIA w imm).operands = [.register 0#3, .immediate v false] ∧
      (Instr.movIR w reg imm).operands = [.register reg, .immediate v false] ∧
      (Instr.movRM d w reg rm).wide = w ∧ (op.instrRM d w reg rm).wide = w ∧ (op.instrIRM s w rm imm).wide = w ∧
      (Instr.movIMV w rm imm).wide = w ∧ (op.instrIA w imm).wide = w ∧ (Instr.movIR w reg imm).wide = w) ∧
  (∀ (w : Bool) (addr : Word),
    (Instr.movLoad w addr).operands = [.register 0#3, .memory ⟨none, addr.toNat⟩] ∧
    (Instr.movStore w addr).operands = [.memory ⟨none, addr.toNat⟩, .register 0#3] ∧
    (Instr.movLoad w addr).wide = w ∧ (Instr.movStore w addr).wide = w) ∧
  (∀ (op : JumpOp) (rel : Byte),
    (op.instr rel).operands =
      [.immediate (if rel.toNat < 128 then (rel.toNat : Int) else (rel.toNat : Int) - 256) true] ∧
    (op.instr rel).wide = false)

/-! ### The instructions: results, completion and frames -/

/-- R180 to R183 and R184, into a register (movRM, movIMV, movIR, movLoad): it answers a next state, in which the
destination holds the source's value, every other register name reads as before, and nothing else has changed: no flag
(R180), no byte of the store, not `IP`. What `opRead` gives and which operands a form has are stated by
`OperandReadGivesItsValue` and `OperandsOfEachFormatAreItsFields`. -/
def Obligations.MovIntoRegisterCopiesAndFrames : Prop :=
  ∀ (i : Instr) (s : State) (c : BitVec 3) (src : Operand),
    i.mnemonic = .mov → i.operands = [.register c, src] →
    ∃ t, exec i s = .next t ∧ t = { s with regs := t.regs } ∧
      t.regs.read i.wide c = opRead s i.wide src ∧ regsSameExcept s.regs t.regs i.wide c

/-- R180 to R182 and R185, into memory (movRM, movIMV, movStore), on a store in canonical form: it answers a next state,
in which the bytes at the effective address hold the source's value and every other byte reads as before; no register
and no flag has changed. -/
def Obligations.MovIntoMemoryCopiesAndFrames : Prop :=
  ∀ (i : Instr) (s : State) (m : EffectiveAddress) (src : Operand),
    i.mnemonic = .mov → i.operands = [.memory m, src] → s.mem.wf = true →
    ∃ t, exec i s = .next t ∧ t = { s with mem := t.mem } ∧
      memRead t.mem (ea s.regs m).toNat i.wide = opRead s i.wide src ∧
      memSameOutside s.mem t.mem (ea s.regs m) i.wide

/-- R191: `add`, `sub` and `cmp` in all nine forms. The operands' old values, the 16-bit result, the operand write
(none for `cmp`), and both flags from all 16 bits. That byte operands are zero-extended is decision D13 (R193, log
entry 9). What `opRead` gives and which operands a form has are stated by `OperandReadGivesItsValue` and
`OperandsOfEachFormatAreItsFields`. -/
def Obligations.ArithmeticWritesResultThenFlags : Prop :=
  ∀ (i : Instr) (s : State) (dst src : Operand), i.operands = [dst, src] →
    (i.wide = false → (opRead s false dst).toNat < 256 ∧ (opRead s false src).toNat < 256) ∧
    (i.mnemonic = .add →
      ∃ u r, r.toNat = ((opRead s i.wide dst).toNat + (opRead s i.wide src).toNat) % 65536 ∧
        opWrite s i.wide dst r = .next u ∧
        exec i s = .next { u with zf := decide (r.toNat = 0), sf := decide (32768 ≤ r.toNat) }) ∧
    (i.mnemonic = .sub →
      ∃ u r, (r.toNat : Int) = ((opRead s i.wide dst).toNat - (opRead s i.wide src).toNat : Int) % 65536 ∧
        opWrite s i.wide dst r = .next u ∧
        exec i s = .next { u with zf := decide (r.toNat = 0), sf := decide (32768 ≤ r.toNat) }) ∧
    (i.mnemonic = .cmp →
      ∃ r : Word, (r.toNat : Int) = ((opRead s i.wide dst).toNat - (opRead s i.wide src).toNat : Int) % 65536 ∧
        exec i s = .next { s with zf := decide (r.toNat = 0), sf := decide (32768 ≤ r.toNat) })

/-- R191 with R25, into a register (addRM, addIRM, addIA, subRM, subIRM, subIA): the destination holds the result at
its width, every other register name reads as before, and only the registers and the two flags change. -/
def Obligations.AddSubIntoRegisterFrames : Prop :=
  ∀ (i : Instr) (s : State) (c : BitVec 3) (src : Operand),
    (i.mnemonic = .add ∨ i.mnemonic = .sub) → i.operands = [.register c, src] →
    ∃ t, exec i s = .next t ∧ t = { s with regs := t.regs, zf := t.zf, sf := t.sf } ∧
      t.regs.read i.wide c =
        (if i.mnemonic = .add then s.regs.read i.wide c + opRead s i.wide src
          else s.regs.read i.wide c - opRead s i.wide src) &&& (if i.wide then 0xFFFF#16 else 0x00FF#16) ∧
      regsSameExcept s.regs t.regs i.wide c

/-- R191 with R64, into memory (addRM, addIRM, subRM, subIRM), on a store in canonical form: the bytes at the effective
address hold the result at its width, every other byte reads as before, and only the store and the two flags change.
That memory may be their destination is decision D21 (log entry 22). -/
def Obligations.AddSubIntoMemoryFrames : Prop :=
  ∀ (i : Instr) (s : State) (m : EffectiveAddress) (src : Operand),
    (i.mnemonic = .add ∨ i.mnemonic = .sub) → i.operands = [.memory m, src] → s.mem.wf = true →
    ∃ t, exec i s = .next t ∧ t = { s with mem := t.mem, zf := t.zf, sf := t.sf } ∧
      memRead t.mem (ea s.regs m).toNat i.wide =
        (if i.mnemonic = .add then memRead s.mem (ea s.regs m).toNat i.wide + opRead s i.wide src
          else memRead s.mem (ea s.regs m).toNat i.wide - opRead s i.wide src) &&&
          (if i.wide then 0xFFFF#16 else 0x00FF#16) ∧
      memSameOutside s.mem t.mem (ea s.regs m) i.wide

/-- R195: after `cmp` (cmpRM, cmpIRM, cmpIA) the zero flag says exactly that the operands are equal, at both widths;
nothing but the two flags changes, no operand is written. For the byte forms it rests on decision D13 (R193, log entry
9): the flag comes from the 16-bit difference of the zero-extended bytes. -/
def Obligations.CmpZeroFlagMeansEqual : Prop :=
  ∀ (i : Instr) (s : State) (dst src : Operand), i.mnemonic = .cmp → i.operands = [dst, src] →
    ∃ t, exec i s = .next t ∧ t = { s with zf := t.zf, sf := t.sf } ∧
      (t.zf = true ↔ opRead s i.wide dst = opRead s i.wide src)

/-- R193, decision D13 (log entry 9): the flags of byte operations. After a byte `add` the sign flag is clear and the
zero flag says that both operands are 0; after a byte `sub` or `cmp` the zero flag says that they are equal and the sign
flag that the first is below the second, unsigned. -/
def Obligations.ByteArithmeticFlags : Prop :=
  ∀ (i : Instr) (s : State) (dst src : Operand), i.operands = [dst, src] → i.wide = false →
    (i.mnemonic = .add → ∃ t, exec i s = .next t ∧ t.sf = false ∧
      (t.zf = true ↔ opRead s false dst = 0#16 ∧ opRead s false src = 0#16)) ∧
    (i.mnemonic = .sub ∨ i.mnemonic = .cmp → ∃ t, exec i s = .next t ∧
      (t.zf = true ↔ opRead s false dst = opRead s false src) ∧
      (t.sf = true ↔ (opRead s false dst).toNat < (opRead s false src).toNat))

/-- R31: `add`, `sub` and `cmp` write both flags from the 16-bit result; every other instruction leaves both alone;
fetching and decoding write none. The second part holds of the nineteen jumps and of `or`, `adc`, `sbb`, `and` too. That
the 16-bit result of a byte form is that of the zero-extended bytes is decision D13 (R193, log entry 9), not R31. -/
def Obligations.OnlyArithmeticWritesFlags : Prop :=
  ∀ (i : Instr) (s t : State), exec i s = .next t →
    ((i.mnemonic = .add ∨ i.mnemonic = .sub ∨ i.mnemonic = .cmp) → ∃ (dst src : Operand) (r : Word),
      i.operands = [dst, src] ∧
      r = (if i.mnemonic = .add then opRead s i.wide dst + opRead s i.wide src
        else opRead s i.wide dst - opRead s i.wide src) ∧
      (t.zf = true ↔ r = 0#16) ∧ t.sf = r.getLsbD 15) ∧
    ((i.mnemonic ≠ .add ∧ i.mnemonic ≠ .sub ∧ i.mnemonic ≠ .cmp) → t.zf = s.zf ∧ t.sf = s.sf) ∧
    (fetchDecode s).zf = s.zf ∧ (fetchDecode s).sf = s.sf

/-- R31: no instruction reads `SF`. Two states that differ in `SF` alone give next states that differ in `SF` at most. That
the thirty-one constructors without semantics answer a next state at all is the model's reading of R9, R262 and R268
(decision D14, log entry 2). -/
def Obligations.SignFlagInfluencesNothing : Prop :=
  ∀ (i : Instr) (s : State) (b : Bool),
    ∃ t u, exec i s = .next t ∧ exec i { s with sf := b } = .next u ∧ { u with sf := t.sf } = t

/-- R231 with decision D3 (log entry 17): `jnz` with `IP` already past it. Taken, the offset is added modulo 2^16; not
taken, the state is unchanged. -/
def Obligations.JnzAddsItsOffsetWhenZeroFlagClear : Prop :=
  ∀ (rel : Byte) (s : State),
    (s.zf = true → exec (.jnz rel) s = .next s) ∧
    (s.zf = false → ∃ t, exec (.jnz rel) s = .next t ∧ t = { s with ip := t.ip } ∧
      ((t.ip.toNat : Int) = (s.ip.toNat + rel.toInt) % 65536))

/-- R29 b and c: no instruction but `jnz` writes `IP` in its effect. -/
def Obligations.OnlyJnzWritesIp : Prop :=
  ∀ (i : Instr) (s t : State), exec i s = .next t → i.mnemonic ≠ .jnz → t.ip = s.ip

/-- R26, R29, R31, R41, R80: what an effect may change, for all 46 constructors and both policies. The registers change
only by `mov`, `add` and `sub` with a register `c` as first operand, and then only in names that share a bit with `c`;
the store only by these with a memory operand `m` first, and then only in the bytes at `ea s.regs m`; `IP` only by
`jnz` with `ZF = 0`; the flags only by `add`, `sub` and `cmp`; `ES` and `ERR` only by the refusal of an instruction
without semantics under the default policy (decision D14, log entry 2); `CUR`, `L`, the policy and the outputs never.
That `add` and `sub` may have a memory destination is decision D21 (log entry 22). -/
def Obligations.OnlyTheDestinationIsWritten : Prop :=
  ∀ (i : Instr) (s t : State), exec i s = .next t →
    (t.regs = s.regs ∨ ((i.mnemonic = .mov ∨ i.mnemonic = .add ∨ i.mnemonic = .sub) ∧
      ∃ c src, i.operands = [.register c, src] ∧ t.mem = s.mem ∧ regsSameExcept s.regs t.regs i.wide c)) ∧
    (t.mem = s.mem ∨ ((i.mnemonic = .mov ∨ i.mnemonic = .add ∨ i.mnemonic = .sub) ∧
      ∃ m src, i.operands = [.memory m, src] ∧ t.regs = s.regs ∧
        memSameOutside s.mem t.mem (ea s.regs m) i.wide)) ∧
    (t.ip = s.ip ∨ (i.mnemonic = .jnz ∧ s.zf = false)) ∧
    ((t.zf = s.zf ∧ t.sf = s.sf) ∨ i.mnemonic = .add ∨ i.mnemonic = .sub ∨ i.mnemonic = .cmp) ∧
    ((t.es = s.es ∧ t.err = s.err) ∨ (i.mnemonic.executable = false ∧ s.unimplPolicy = .refuse)) ∧
    t.cur = s.cur ∧ t.loadedLen = s.loadedLen ∧ t.unimplPolicy = s.unimplPolicy ∧ t.out = s.out

/-- R194, R232, R268, decision D14 (log entry 2): the thirty-one constructors without execution semantics (`or`, `adc`,
`sbb`, `and` in their three forms, and every format J instruction but `jnz`), under the default policy: the engine goes
to `Refused` and `ERR` is written; no operand is read and nothing else changes. -/
def Obligations.InstructionsWithoutSemanticsAreRefused : Prop :=
  ∀ (i : Instr) (s : State), i.mnemonic.executable = false → s.unimplPolicy = .refuse →
    exec i s = .next { s with
      es := .refused
      err := some ⟨.unimplemented, (s.ip - BitVec.ofNat 16 i.size).toNat, some i.mnemonic⟩ }

/-- U1, U2 of spec/93 (log entry 2): the same constructors under the alternative policy `skip`: nothing changes beyond
the advance of `IP` that came before. -/
def Obligations.InstructionsWithoutSemanticsAreSkippedUnderSkip : Prop :=
  ∀ (i : Instr) (s : State), i.mnemonic.executable = false → s.unimplPolicy = .skip → exec i s = .next s

/-- R302: no failure is raised at execution; `mov`, `add`, `sub`, `cmp` and `jnz` always complete. Every instruction
answers a next state in every state. That the other thirty-one do is the model's reading of R9, R262 and R268 (log entry
2); that the refusal of an operand write is met by none is log entry 15. -/
def Obligations.EveryInstructionCompletes : Prop :=
  ∀ (i : Instr) (s : State), ∃ t, exec i s = .next t

/-! ### Encoding and decoding -/

/-- R94 to R111: decoding the encoding of a well-formed instruction gives it back, whatever bytes follow (R141). -/
def Obligations.DecodeOfEncodeIsTheInstruction : Prop :=
  ∀ (i : Instr), i.wf = true → ∀ rest : List Byte, decode (encode i ++ rest) = .ok i

/-- R122, R125: the other direction. What is decoded is well-formed, and its encoding is the bytes it was decoded from. -/
def Obligations.EncodeOfDecodeIsTheBytes : Prop :=
  ∀ (bs : List Byte) (i : Instr), decode bs = .ok i → i.wf = true ∧ encode i = bs.take i.size ∧ i.size ≤ bs.length

/-- R113, R150, R160: the size as a function of the first two bytes, from the spec's own table. -/
def Obligations.SizeIsAFunctionOfTheFirstTwoBytes : Prop :=
  ∀ (b0 b1 : Byte) (rest : List Byte) (i : Instr), decode (b0 :: b1 :: rest) = .ok i →
    let dispLen : Nat :=
      if b1.extractLsb' 6 2 = 0b11#2 then 0
      else if b1.extractLsb' 6 2 = 0b01#2 then 1
      else if b1.extractLsb' 6 2 = 0b10#2 then 2
      else if b1.extractLsb' 0 3 = 0b110#3 then 2 else 0
    (classify b0 = some .jcc → i.size = 2) ∧
    (classify b0 = some .immAccArith → i.size = if b0.getLsbD 0 then 3 else 2) ∧
    (classify b0 = some .immRegMov → i.size = if b0.getLsbD 3 then 3 else 2) ∧
    (classify b0 = some .accMemMov → i.size = 3) ∧
    (classify b0 = some .rmRegMov ∨ classify b0 = some .rmRegArith → i.size = 2 + dispLen) ∧
    (classify b0 = some .immRmArith →
      i.size = 2 + dispLen + if b0.getLsbD 1 = false ∧ b0.getLsbD 0 = true then 2 else 1) ∧
    (classify b0 = some .immRmMov → i.size = 2 + dispLen + if b0.getLsbD 0 then 2 else 1) ∧
    2 ≤ i.size ∧ i.size ≤ 6

/-- R160, R161 a, c, e: any encoding cut short fails with `TruncatedInstruction`, the empty one too. -/
def Obligations.TruncatedEncodingIsTruncatedInstruction : Prop :=
  ∀ (i : Instr), i.wf = true → ∀ k, k < i.size → decode ((encode i).take k) = .error .truncatedInstruction

/-- R120, R121, R161 b, d, with decisions D11 and D12 (log entry 13): exactly when a decode fails with
`UnrecognizedOpcode`: a first byte in no family, or a second byte that is there and is rejected, whatever follows. -/
def Obligations.UnrecognizedOpcodeExactlyWhen : Prop :=
  ∀ bs : List Byte, decode bs = .error .unrecognizedOpcode ↔
    ∃ b0 rest, bs = b0 :: rest ∧
      (classify b0 = none ∨
        ∃ b1 rest', rest = b1 :: rest' ∧
          ((classify b0 = some .immRmArith ∧ b1.extractLsb' 3 3 = 0b110#3) ∨
            (classify b0 = some .immRmMov ∧ b1.extractLsb' 3 3 ≠ 0b000#3)))

/-- R92, R93, R124: at most one family's test holds of a first byte, so the order of the cascade changes no result; the
cascade finds it; 92 first bytes are recognised and 164 are not. -/
def Obligations.FamiliesAreDisjoint : Prop :=
  (∀ (b0 : Byte) (f g : Family), f.test b0 = true → g.test b0 = true → f = g) ∧
  (∀ (b0 : Byte) (f : Family), classify b0 = some f ↔ f.test b0 = true) ∧
  ((List.range 256).countP fun n => (classify (BitVec.ofNat 8 n)).isSome) = 92

/-- R141, R345: the Instruction depends on its own bytes. Two stores that agree on them, whatever lies around them and
whatever the loaded lengths that hold them, decode alike at the position. -/
def Obligations.DecodeDependsOnItsOwnBytesOnly : Prop :=
  ∀ (s t : State) (p : Nat) (i : Instr), decodeAt s p = .ok i → p + i.size ≤ t.loadedLen →
    (∀ a, p ≤ a → a < p + i.size → t.mem.read a = s.mem.read a) → decodeAt t p = .ok i

/-- Words written out from the spec's encodings (R95 to R101, R115, the worked examples of 40_decoder.md section 6), one
of each family. -/
def Obligations.WorkedExamplesDecode : Prop :=
  decode [0x89#8, 0xD9#8] = .ok (.movRM false true 3#3 (.reg 1#3)) ∧
  decode [0x8B#8, 0x56#8, 0x00#8] = .ok (.movRM true true 2#3 (.mem8 .bp 0#8)) ∧
  decode [0x8B#8, 0x1E#8, 0x0D#8, 0x0F#8] = .ok (.movRM true true 3#3 (.direct 3853#16)) ∧
  decode [0xB9#8, 0x02#8, 0x00#8] = .ok (.movIR true 1#3 (.word 2#16)) ∧
  decode [0x83#8, 0xE9#8, 0x01#8] = .ok (.subIRM true true (.reg 1#3) (.byte 1#8)) ∧
  decode [0x81#8, 0x06#8, 0xE8#8, 0x03#8, 0x2C#8, 0x01#8] = .ok (.addIRM false true (.direct 1000#16) (.word 300#16)) ∧
  decode [0xC6#8, 0x03#8, 0x07#8] = .ok (.movIMV false (.mem .bpDi) (.byte 7#8)) ∧
  decode [0x3D#8, 0xE8#8, 0x03#8] = .ok (.cmpIA true (.word 1000#16)) ∧
  decode [0xA1#8, 0x10#8, 0x00#8] = .ok (.movLoad true 16#16) ∧
  decode [0x03#8, 0x18#8] = .ok (.addRM true true 3#3 (.mem .bxSi)) ∧
  decode [0x75#8, 0xFB#8] = .ok (.jnz 0xFB#8) ∧
  decode [0x0F#8] = .error .unrecognizedOpcode ∧
  decode [0x80#8, 0xF0#8, 0x01#8] = .error .unrecognizedOpcode ∧
  decode [0xC7#8, 0xC8#8, 0x01#8, 0x00#8] = .error .unrecognizedOpcode ∧
  decode [0x8B#8, 0x86#8] = .error .truncatedInstruction

/-! ### Rendering -/

/-- R280, R281, R284 to R286: the text of worked examples of 46_text_rendering.md section R290 (decision D17, log entry
14). -/
def Obligations.WorkedExamplesRender : Prop :=
  render (DecodedInstr.record ⟨0, .movRM true true 0#3 (.mem8 .bxDi 0xDB#8)⟩) = "mov ax, [bx + di - 37]" ∧
  render (DecodedInstr.record ⟨0, .movRM true true 3#3 (.direct 0x820D#16)⟩) = "mov bx, [33293]" ∧
  render (DecodedInstr.record ⟨0, .movIMV true (.mem16 .di 901#16) (.word 347#16)⟩) = "mov word [di + 901], 347" ∧
  render (DecodedInstr.record ⟨0, .movIR true 1#3 (.word 0xFFF4#16)⟩) = "mov cx, 65524" ∧
  render (DecodedInstr.record ⟨0, .subIA false (.byte 0xE2#8)⟩) = "sub al, -30" ∧
  render (DecodedInstr.record ⟨0, .cmpRM true true 3#3 (.mem8 .bp 0#8)⟩) = "cmp bx, [bp]" ∧
  render (DecodedInstr.record ⟨0, .jnz 0xFB#8⟩) = "jnz $-3" ∧
  render (DecodedInstr.record ⟨0, .jcxz 0xFE#8⟩) = "jcxz $+0"

/-- R285 with R280 to R284 and R287: the whole printed line of every instruction with a memory operand `m`. The keyword
is printed exactly in the formats IRM and IMV, by the wide bit, directly before the memory operand and not before the
immediate; in the formats RM and MA the register's name is printed and no keyword; the other formats have no memory
operand. Where the keyword stands is decision D17 (log entry 14). -/
def Obligations.SizeKeywordExactlyWithoutRegister : Prop :=
  ∀ (p : Nat) (i : Instr) (m : EffectiveAddress),
    match i.form with
    | .irm _ w rm imm => rm.operand = .memory m →
      render (DecodedInstr.record ⟨p, i⟩) =
        mnemonicText i.mnemonic ++ " " ++ (if w then "word " else "byte ") ++ memoryText m ++ ", " ++ decInt imm.value
    | .imv w rm imm => rm.operand = .memory m →
      render (DecodedInstr.record ⟨p, i⟩) =
        mnemonicText i.mnemonic ++ " " ++ (if w then "word " else "byte ") ++ memoryText m ++ ", " ++ decInt imm.value
    | .rm d w reg rm => rm.operand = .memory m →
      render (DecodedInstr.record ⟨p, i⟩) =
        mnemonicText i.mnemonic ++ " " ++
          (if d then registerText w reg ++ ", " ++ memoryText m else memoryText m ++ ", " ++ registerText w reg)
    | .ma t w addr => m = ⟨none, addr.toNat⟩ →
      render (DecodedInstr.record ⟨p, i⟩) =
        mnemonicText i.mnemonic ++ " " ++
          (if t then memoryText m ++ ", " ++ registerText w 0b000#3 else registerText w 0b000#3 ++ ", " ++ memoryText m)
    | .ia _ _ => .memory m ∉ i.operands
    | .ir _ _ _ => .memory m ∉ i.operands
    | .j _ => .memory m ∉ i.operands

/-- R280 to R282, R288, R289: the text does not depend on the position, nor on which of these redundant encodings of
R122 an operation has (all of a, b, d and e; of c the immediates whose text is the same): (a) the two encodings of a register-to-register `mov` or arithmetic operation; (b) a zero displacement
of no, one or two bytes, and a displacement of one byte or of two, in every format with an r/m operand; (c) a word
immediate of 0 to 127 as one byte or two (the texts of -128 to -1 differ: one byte is printed signed, two unsigned,
R109, R283); (d) 0x82 and 0x80;
(e) an immediate or a direct address in the short form or in the r/m form. -/
def Obligations.RenderIsTheSameForRedundantEncodings : Prop :=
  (∀ (p q : Nat) (i : Instr), render (DecodedInstr.record ⟨p, i⟩) = render (DecodedInstr.record ⟨q, i⟩)) ∧
  (∀ (p : Nat) (w : Bool) (a b : BitVec 3),
    render (DecodedInstr.record ⟨p, .movRM true w a (.reg b)⟩) =
      render (DecodedInstr.record ⟨p, .movRM false w b (.reg a)⟩) ∧
    ∀ op : ArithOp, render (DecodedInstr.record ⟨p, op.instrRM true w a (.reg b)⟩) =
      render (DecodedInstr.record ⟨p, op.instrRM false w b (.reg a)⟩)) ∧
  (∀ (p : Nat) (base : BasePair) (disp : Byte) (r r' : RmOperand),
    ((r = .mem base ∧ r' = .mem8 base 0#8) ∨ (r = .mem8 base disp ∧ r' = .mem16 base (disp.signExtend 16))) →
    ∀ (d x w : Bool) (reg : BitVec 3) (imm : Imm) (op : ArithOp),
      render (DecodedInstr.record ⟨p, .movRM d w reg r⟩) = render (DecodedInstr.record ⟨p, .movRM d w reg r'⟩) ∧
      render (DecodedInstr.record ⟨p, .movIMV w r imm⟩) = render (DecodedInstr.record ⟨p, .movIMV w r' imm⟩) ∧
      render (DecodedInstr.record ⟨p, op.instrRM d w reg r⟩) =
        render (DecodedInstr.record ⟨p, op.instrRM d w reg r'⟩) ∧
      render (DecodedInstr.record ⟨p, op.instrIRM x w r imm⟩) =
        render (DecodedInstr.record ⟨p, op.instrIRM x w r' imm⟩)) ∧
  (∀ (p : Nat) (op : ArithOp) (rm : RmOperand) (v : Byte), v.toNat < 128 →
    render (DecodedInstr.record ⟨p, op.instrIRM true true rm (.byte v)⟩) =
      render (DecodedInstr.record ⟨p, op.instrIRM false true rm (.word (v.signExtend 16))⟩)) ∧
  (∀ (p : Nat) (op : ArithOp) (rm : RmOperand) (imm : Imm),
    render (DecodedInstr.record ⟨p, op.instrIRM true false rm imm⟩) =
      render (DecodedInstr.record ⟨p, op.instrIRM false false rm imm⟩)) ∧
  (∀ (p : Nat) (op : ArithOp) (w : Bool) (reg : BitVec 3) (imm : Imm) (addr : Word),
    render (DecodedInstr.record ⟨p, op.instrIA w imm⟩) =
      render (DecodedInstr.record ⟨p, op.instrIRM false w (.reg 0#3) imm⟩) ∧
    render (DecodedInstr.record ⟨p, .movIR w reg imm⟩) = render (DecodedInstr.record ⟨p, .movIMV w (.reg reg) imm⟩) ∧
    render (DecodedInstr.record ⟨p, .movLoad w addr⟩) =
      render (DecodedInstr.record ⟨p, .movRM true w 0#3 (.direct addr)⟩) ∧
    render (DecodedInstr.record ⟨p, .movStore w addr⟩) =
      render (DecodedInstr.record ⟨p, .movRM false w 0#3 (.direct addr)⟩))

/-! ### The engine -/

/-- R265 to R270: in `Fetching`, when the bytes at `IP` decode to `i`, the step is `exec i` in the state in which the
rendered line has been emitted, `IP` has been advanced by the size and the engine is in `Applying`; then, unless the
instruction was refused, `IP ≥ L` ends the run normally with the final report and any other `IP` is fetched next. -/
def Obligations.StepRunsTheDecodedInstruction : Prop :=
  ∀ (s : State) (i : Instr), s.es = .fetching → decodeAt s s.ip.toNat = .ok i →
    step s =
      match exec i { s with
          out := s.out ++ [.line (render (DecodedInstr.record ⟨s.ip.toNat, i⟩))]
          ip := s.ip + BitVec.ofNat 16 i.size
          es := .applying ⟨s.ip.toNat, i⟩ } with
      | .next t =>
        if t.es = .refused then .next t
        else if t.loadedLen ≤ t.ip.toNat then
          .next { t with es := .haltedNormal, out := t.out ++ [.report t.regs t.ip t.zf t.sf] }
        else .next { t with es := .fetching }
      | .fault f => .fault f
      | .refused r => .refused r

/-- R308: taking a decode failure, in both modes: `ERR`, the terminal state, the diagnostic, and nothing else. `p` is
`IP` in Execute mode and `CUR` in Trace mode (below the loaded length, where a trace decodes, R272). -/
def Obligations.DecodeFailureHaltsPrecisely : Prop :=
  ∀ (s : State) (k : DecodeFailure),
    let kind : ErrKind := match k with
      | .unrecognizedOpcode => .unrecognizedOpcode
      | .truncatedInstruction => .truncatedInstruction
    (s.es = .fetching → decodeAt s s.ip.toNat = .error k →
      step s = .next { s with
        err := some ⟨kind, s.ip.toNat, none⟩
        es := .haltedError
        out := s.out ++ [.diagnostic ⟨kind, s.ip.toNat, none⟩] }) ∧
    (s.es = .traceFetching → s.cur < s.loadedLen → decodeAt s s.cur = .error k →
      step s = .next { s with
        err := some ⟨kind, s.cur, none⟩
        es := .traceError
        out := s.out ++ [.diagnostic ⟨kind, s.cur, none⟩] })

/-- R268, R351, decision D14 (log entries 2 and 19): a step on an instruction without semantics, default policy: the line
is emitted, `IP` is advanced, `ERR` holds the address of the instruction itself, and nothing else changes. -/
def Obligations.StepRefusesAtTheInstructionsAddress : Prop :=
  ∀ (s : State) (i : Instr), s.es = .fetching → s.unimplPolicy = .refuse → decodeAt s s.ip.toNat = .ok i →
    i.mnemonic.executable = false →
    step s = .next { s with
      ip := s.ip + BitVec.ofNat 16 i.size
      es := .refused
      err := some ⟨.unimplemented, s.ip.toNat, some i.mnemonic⟩
      out := s.out ++ [.line (render (DecodedInstr.record ⟨s.ip.toNat, i⟩))] }

/-- R262, R270: the macro step is three transitions of the Execute state machine when the decode succeeds, and one when
it fails. -/
def Obligations.MacroStepIsThreeTransitions : Prop :=
  ∀ s : State, s.es = .fetching →
    ((∃ i, decodeAt s s.ip.toNat = .ok i) →
      step s = andThen (andThen (transition s) transition) transition) ∧
    ((∃ k, decodeAt s s.ip.toNat = .error k) → step s = transition s)

/-- R262, R272, R33: every transition with its condition and its action. In each engine state there is a next state; it
is reached under one of the conditions listed, and its content is given. `u` is the state after the effect. An
instruction without semantics goes to `Refused` under the default policy and on under `skip` (decision D14 and U1, log
entry 2). The Trace loop is stated for `CUR ≤ L`, which the invariant of the machine gives it (R272: `CUR > L` cannot
occur, log entry 21). That a terminal state stays as it is, is the model's form of having no transition (log
entry 3). -/
def Obligations.TransitionsAreThoseOfTheTable : Prop :=
  ∀ s : State, ∃ t, transition s = .next t ∧
    match s.es with
    | .fetching =>
      (∃ i, decodeAt s s.ip.toNat = .ok i ∧ t = { s with es := .decoded ⟨s.ip.toNat, i⟩ }) ∨
      (∃ k, decodeAt s s.ip.toNat = .error k ∧
        t = { s with
          es := .haltedError
          err := some ⟨failureKind k, s.ip.toNat, none⟩
          out := s.out ++ [.diagnostic ⟨failureKind k, s.ip.toNat, none⟩] })
    | .decoded d =>
      t = { s with
        es := .applying d
        ip := s.ip + BitVec.ofNat 16 d.instr.size
        out := s.out ++ [.line (render d.record)] }
    | .applying d =>
      ∃ u, exec d.instr s = .next u ∧
        (((d.instr.mnemonic.executable = true ∨ s.unimplPolicy = .skip) ∧ u.ip.toNat < u.loadedLen ∧
            t = { u with es := .fetching }) ∨
          ((d.instr.mnemonic.executable = true ∨ s.unimplPolicy = .skip) ∧ u.loadedLen ≤ u.ip.toNat ∧
            t = { u with es := .haltedNormal, out := u.out ++ [.report u.regs u.ip u.zf u.sf] }) ∨
          (d.instr.mnemonic.executable = false ∧ s.unimplPolicy = .refuse ∧ t.es = .refused ∧ t = u))
    | .traceFetching =>
      s.cur ≤ s.loadedLen →
        (s.cur = s.loadedLen ∧ t = { s with es := .traceDone }) ∨
        (s.cur < s.loadedLen ∧ ∃ i, decodeAt s s.cur = .ok i ∧
          t = { s with
            cur := s.cur + i.size
            out := s.out ++ [.line (render (DecodedInstr.record ⟨s.cur, i⟩))] }) ∨
        (s.cur < s.loadedLen ∧ ∃ k, decodeAt s s.cur = .error k ∧
          t = { s with
            es := .traceError
            err := some ⟨failureKind k, s.cur, none⟩
            out := s.out ++ [.diagnostic ⟨failureKind k, s.cur, none⟩] })
    | .haltedNormal | .haltedError | .refused | .traceDone | .traceError => t = s

/-- R272: the Trace loop, below or at the loaded length: the end, one decoded instruction, or a failure; a jump is not
followed. -/
def Obligations.TraceStepPrintsAndAdvances : Prop :=
  ∀ s : State, s.es = .traceFetching → s.cur ≤ s.loadedLen →
    (s.cur = s.loadedLen → step s = .next { s with es := .traceDone }) ∧
    (∀ i, s.cur < s.loadedLen → decodeAt s s.cur = .ok i →
      step s = .next { s with
        cur := s.cur + i.size
        out := s.out ++ [.line (render (DecodedInstr.record ⟨s.cur, i⟩))] } ∧
      s.cur + i.size ≤ s.loadedLen)

/-- R77, R344: what is fetched is the store as it is now, below the loaded length, at most six bytes. -/
def Obligations.FetchReadsTheStoreAsItIs : Prop :=
  ∀ (m : Memory) (p L : Nat),
    (fetchWindow m p L).length = min 6 (L - p) ∧
    ∀ k, k < min 6 (L - p) → (fetchWindow m p L)[k]? = some (m.read (p + k))

/-- R302, R346: a step answers a next state in every state; there is no fault and no refusal of a step. That it does is
the model's choice: an ended run stays as it is (log entry 3), a decode failure and the refusal of an instruction are
next states (log entries 18 and 2), and states that no run reaches step as well (log entry 21). -/
def Obligations.EveryStepAnswersANextState : Prop := ∀ s : State, ∃ t, step s = .next t

/-- R37, R260: the loaded length and the mode of a run do not change; the outputs so far stay, in their order (R274). The
policy does not change either: it is the model's parameter for U1 of spec/93 (log entry 2); the list of outputs is the
model's field (log entry 7). -/
def Obligations.ConfigurationAndPastOutputsAreConstant : Prop :=
  ∀ s t : State, step s = .next t →
    t.loadedLen = s.loadedLen ∧ t.mode = s.mode ∧ t.unimplPolicy = s.unimplPolicy ∧ ∃ more, t.out = s.out ++ more

/-- R34, R272, R345: a step in Execute mode leaves `CUR` alone, and a step in Trace mode leaves the Register File (`IP`
and the flags among it) and the store alone. -/
def Obligations.ModesTouchOnlyTheirOwnPosition : Prop :=
  ∀ s t : State, step s = .next t →
    (s.mode = .execute → t.cur = s.cur) ∧
    (s.mode = .trace → t.regs = s.regs ∧ t.ip = s.ip ∧ t.zf = s.zf ∧ t.sf = s.sf ∧ t.mem = s.mem)

/-- R33, R35, R271: once a run has ended the state stays as it is, `ERR` with it. That a step of an ended run is the
identity is the model's choice (log entry 3). -/
def Obligations.EndedRunStaysAsItIs : Prop :=
  ∀ s : State, s.ended = true → step s = .next s ∧ transition s = .next s

/-! ### Invariants and runs -/

/-- The invariant holds at reset, for the constant reset and for every accepted argument of `boot` (R340). -/
def Obligations.ResetHasTheMachineInvariant : Prop :=
  State.reset.Inv ∧
  ∀ (image : List Byte) (mode : Mode) (policy : UnimplPolicy) (s : State), boot image mode policy = .next s → s.Inv

/-- Every step keeps the invariant: the store's canonical form, the bound on the loaded length (R340), and what `ERR`,
`IP` and `CUR` hold in each engine state (R35, R309, R351). -/
def Obligations.StepKeepsTheMachineInvariant : Prop := ∀ s t : State, s.Inv → step s = .next t → t.Inv

/-- So does every transition of the state machines (R262, R272). -/
def Obligations.TransitionKeepsTheMachineInvariant : Prop := ∀ s t : State, s.Inv → transition s = .next t → t.Inv

/-- R351: what can be relied on at the end of a run, for every state that a run reaches from any reset; in Trace mode
the registers and flags have their reset values throughout, whatever those are (log entry 6). -/
def Obligations.EndsOfReachableRuns : Prop :=
  ∀ s : State, Reachable s →
    (s.es = .haltedNormal → s.loadedLen ≤ s.ip.toNat ∧ s.err = none) ∧
    (s.es = .haltedError → (s.ip.toNat < s.loadedLen ∨ s.loadedLen = 0) ∧
      (s.err = some ⟨.unrecognizedOpcode, s.ip.toNat, none⟩ ∨ s.err = some ⟨.truncatedInstruction, s.ip.toNat, none⟩)) ∧
    (s.es = .refused → ∃ (address size : Nat) (op : Mnemonic),
      s.err = some ⟨.unimplemented, address, some op⟩ ∧ op.executable = false ∧
      2 ≤ size ∧ size ≤ 6 ∧ s.ip = BitVec.ofNat 16 (address + size)) ∧
    (s.es = .traceDone → s.cur = s.loadedLen ∧ s.err = none) ∧
    (s.es = .traceError → s.cur < s.loadedLen ∧
      (s.err = some ⟨.unrecognizedOpcode, s.cur, none⟩ ∨ s.err = some ⟨.truncatedInstruction, s.cur, none⟩)) ∧
    (s.mode = .trace → s.regs = State.reset.regs ∧ s.ip = State.reset.ip ∧ s.zf = State.reset.zf ∧
      s.sf = State.reset.sf)

/-- R272, R351: a Trace run leaves the Register File, the flags, `IP` and the store as the reset made them, after any
number of steps; the store still holds the image. That a run goes on answering states after its end is log entry 3. -/
def Obligations.TraceRunLeavesRegistersAndMemory : Prop :=
  ∀ (image : List Byte) (policy : UnimplPolicy) (s : State), boot image .trace policy = .next s →
    ∀ n, ∃ t, core.run n s = .next t ∧ t.regs = s.regs ∧ t.ip = s.ip ∧ t.zf = s.zf ∧ t.sf = s.sf ∧ t.mem = s.mem ∧
      ∀ a, a < image.length → image[a]? = some (t.mem.read a)

/-- R273: Trace always terminates: each step ends the loop or moves the cursor by at least 2 towards the bound. -/
def Obligations.TraceAlwaysTerminates : Prop :=
  ∀ s : State, s.es = .traceFetching → s.cur ≤ s.loadedLen →
    ∃ n t, n ≤ (s.loadedLen - s.cur) / 2 + 1 ∧ core.run n s = .next t ∧ (t.es = .traceDone ∨ t.es = .traceError)

/-- R162, R273: the trace of an image that is the encoding of a sequence of well-formed instructions, one after the
other, ends in `TraceDone` after one step an instruction and one more, with `CUR = L` (no gap and no overlap), one line
an instruction in their order, no error, and nothing else emitted. -/
def Obligations.TraceOfAValidProgramListsIt : Prop :=
  ∀ (is : List Instr) (policy : UnimplPolicy) (s : State), (∀ i ∈ is, i.wf = true) →
    boot (is.flatMap encode) .trace policy = .next s →
    ∃ t, core.run (is.length + 1) s = .next t ∧ t.es = .traceDone ∧ t.cur = s.loadedLen ∧ t.err = none ∧
      t.out = is.map fun i => .line (render (DecodedInstr.record ⟨0, i⟩))
end

