-- ==== Sys2Proof/Laws/State.lean ====
section
/-! SUPPORT. One lemma for each field and each update of State, so that no proof unfolds a record update; and the
reset state's fields. -/

namespace Sys2Proof.Machine

@[simp] theorem State.setRegs_regs (s : State) (r : Regs) : (s.setRegs r).regs = r := rfl
@[simp] theorem State.setRegs_ip (s : State) (r : Regs) : (s.setRegs r).ip = s.ip := rfl
@[simp] theorem State.setRegs_zf (s : State) (r : Regs) : (s.setRegs r).zf = s.zf := rfl
@[simp] theorem State.setRegs_sf (s : State) (r : Regs) : (s.setRegs r).sf = s.sf := rfl
@[simp] theorem State.setRegs_mem (s : State) (r : Regs) : (s.setRegs r).mem = s.mem := rfl
@[simp] theorem State.setRegs_cur (s : State) (r : Regs) : (s.setRegs r).cur = s.cur := rfl
@[simp] theorem State.setRegs_es (s : State) (r : Regs) : (s.setRegs r).es = s.es := rfl
@[simp] theorem State.setRegs_err (s : State) (r : Regs) : (s.setRegs r).err = s.err := rfl
@[simp] theorem State.setRegs_loadedLen (s : State) (r : Regs) : (s.setRegs r).loadedLen = s.loadedLen := rfl
@[simp] theorem State.setRegs_unimplPolicy (s : State) (r : Regs) : (s.setRegs r).unimplPolicy = s.unimplPolicy := rfl
@[simp] theorem State.setRegs_out (s : State) (r : Regs) : (s.setRegs r).out = s.out := rfl

@[simp] theorem State.setIp_regs (s : State) (v : Word) : (s.setIp v).regs = s.regs := rfl
@[simp] theorem State.setIp_ip (s : State) (v : Word) : (s.setIp v).ip = v := rfl
@[simp] theorem State.setIp_zf (s : State) (v : Word) : (s.setIp v).zf = s.zf := rfl
@[simp] theorem State.setIp_sf (s : State) (v : Word) : (s.setIp v).sf = s.sf := rfl
@[simp] theorem State.setIp_mem (s : State) (v : Word) : (s.setIp v).mem = s.mem := rfl
@[simp] theorem State.setIp_cur (s : State) (v : Word) : (s.setIp v).cur = s.cur := rfl
@[simp] theorem State.setIp_es (s : State) (v : Word) : (s.setIp v).es = s.es := rfl
@[simp] theorem State.setIp_err (s : State) (v : Word) : (s.setIp v).err = s.err := rfl
@[simp] theorem State.setIp_loadedLen (s : State) (v : Word) : (s.setIp v).loadedLen = s.loadedLen := rfl
@[simp] theorem State.setIp_unimplPolicy (s : State) (v : Word) : (s.setIp v).unimplPolicy = s.unimplPolicy := rfl
@[simp] theorem State.setIp_out (s : State) (v : Word) : (s.setIp v).out = s.out := rfl

@[simp] theorem State.setFlags_regs (s : State) (z g : Bool) : (s.setFlags z g).regs = s.regs := rfl
@[simp] theorem State.setFlags_ip (s : State) (z g : Bool) : (s.setFlags z g).ip = s.ip := rfl
@[simp] theorem State.setFlags_zf (s : State) (z g : Bool) : (s.setFlags z g).zf = z := rfl
@[simp] theorem State.setFlags_sf (s : State) (z g : Bool) : (s.setFlags z g).sf = g := rfl
@[simp] theorem State.setFlags_mem (s : State) (z g : Bool) : (s.setFlags z g).mem = s.mem := rfl
@[simp] theorem State.setFlags_cur (s : State) (z g : Bool) : (s.setFlags z g).cur = s.cur := rfl
@[simp] theorem State.setFlags_es (s : State) (z g : Bool) : (s.setFlags z g).es = s.es := rfl
@[simp] theorem State.setFlags_err (s : State) (z g : Bool) : (s.setFlags z g).err = s.err := rfl
@[simp] theorem State.setFlags_loadedLen (s : State) (z g : Bool) : (s.setFlags z g).loadedLen = s.loadedLen := rfl
@[simp] theorem State.setFlags_unimplPolicy (s : State) (z g : Bool) : (s.setFlags z g).unimplPolicy = s.unimplPolicy := rfl
@[simp] theorem State.setFlags_out (s : State) (z g : Bool) : (s.setFlags z g).out = s.out := rfl

@[simp] theorem State.setMem_regs (s : State) (m : Memory) : (s.setMem m).regs = s.regs := rfl
@[simp] theorem State.setMem_ip (s : State) (m : Memory) : (s.setMem m).ip = s.ip := rfl
@[simp] theorem State.setMem_zf (s : State) (m : Memory) : (s.setMem m).zf = s.zf := rfl
@[simp] theorem State.setMem_sf (s : State) (m : Memory) : (s.setMem m).sf = s.sf := rfl
@[simp] theorem State.setMem_mem (s : State) (m : Memory) : (s.setMem m).mem = m := rfl
@[simp] theorem State.setMem_cur (s : State) (m : Memory) : (s.setMem m).cur = s.cur := rfl
@[simp] theorem State.setMem_es (s : State) (m : Memory) : (s.setMem m).es = s.es := rfl
@[simp] theorem State.setMem_err (s : State) (m : Memory) : (s.setMem m).err = s.err := rfl
@[simp] theorem State.setMem_loadedLen (s : State) (m : Memory) : (s.setMem m).loadedLen = s.loadedLen := rfl
@[simp] theorem State.setMem_unimplPolicy (s : State) (m : Memory) : (s.setMem m).unimplPolicy = s.unimplPolicy := rfl
@[simp] theorem State.setMem_out (s : State) (m : Memory) : (s.setMem m).out = s.out := rfl

@[simp] theorem State.setCur_regs (s : State) (n : Nat) : (s.setCur n).regs = s.regs := rfl
@[simp] theorem State.setCur_ip (s : State) (n : Nat) : (s.setCur n).ip = s.ip := rfl
@[simp] theorem State.setCur_zf (s : State) (n : Nat) : (s.setCur n).zf = s.zf := rfl
@[simp] theorem State.setCur_sf (s : State) (n : Nat) : (s.setCur n).sf = s.sf := rfl
@[simp] theorem State.setCur_mem (s : State) (n : Nat) : (s.setCur n).mem = s.mem := rfl
@[simp] theorem State.setCur_cur (s : State) (n : Nat) : (s.setCur n).cur = n := rfl
@[simp] theorem State.setCur_es (s : State) (n : Nat) : (s.setCur n).es = s.es := rfl
@[simp] theorem State.setCur_err (s : State) (n : Nat) : (s.setCur n).err = s.err := rfl
@[simp] theorem State.setCur_loadedLen (s : State) (n : Nat) : (s.setCur n).loadedLen = s.loadedLen := rfl
@[simp] theorem State.setCur_unimplPolicy (s : State) (n : Nat) : (s.setCur n).unimplPolicy = s.unimplPolicy := rfl
@[simp] theorem State.setCur_out (s : State) (n : Nat) : (s.setCur n).out = s.out := rfl

@[simp] theorem State.setEs_regs (s : State) (e : EngineState) : (s.setEs e).regs = s.regs := rfl
@[simp] theorem State.setEs_ip (s : State) (e : EngineState) : (s.setEs e).ip = s.ip := rfl
@[simp] theorem State.setEs_zf (s : State) (e : EngineState) : (s.setEs e).zf = s.zf := rfl
@[simp] theorem State.setEs_sf (s : State) (e : EngineState) : (s.setEs e).sf = s.sf := rfl
@[simp] theorem State.setEs_mem (s : State) (e : EngineState) : (s.setEs e).mem = s.mem := rfl
@[simp] theorem State.setEs_cur (s : State) (e : EngineState) : (s.setEs e).cur = s.cur := rfl
@[simp] theorem State.setEs_es (s : State) (e : EngineState) : (s.setEs e).es = e := rfl
@[simp] theorem State.setEs_err (s : State) (e : EngineState) : (s.setEs e).err = s.err := rfl
@[simp] theorem State.setEs_loadedLen (s : State) (e : EngineState) : (s.setEs e).loadedLen = s.loadedLen := rfl
@[simp] theorem State.setEs_unimplPolicy (s : State) (e : EngineState) : (s.setEs e).unimplPolicy = s.unimplPolicy := rfl
@[simp] theorem State.setEs_out (s : State) (e : EngineState) : (s.setEs e).out = s.out := rfl

@[simp] theorem State.setErr_regs (s : State) (e : ErrRecord) : (s.setErr e).regs = s.regs := rfl
@[simp] theorem State.setErr_ip (s : State) (e : ErrRecord) : (s.setErr e).ip = s.ip := rfl
@[simp] theorem State.setErr_zf (s : State) (e : ErrRecord) : (s.setErr e).zf = s.zf := rfl
@[simp] theorem State.setErr_sf (s : State) (e : ErrRecord) : (s.setErr e).sf = s.sf := rfl
@[simp] theorem State.setErr_mem (s : State) (e : ErrRecord) : (s.setErr e).mem = s.mem := rfl
@[simp] theorem State.setErr_cur (s : State) (e : ErrRecord) : (s.setErr e).cur = s.cur := rfl
@[simp] theorem State.setErr_es (s : State) (e : ErrRecord) : (s.setErr e).es = s.es := rfl
@[simp] theorem State.setErr_err (s : State) (e : ErrRecord) : (s.setErr e).err = some e := rfl
@[simp] theorem State.setErr_loadedLen (s : State) (e : ErrRecord) : (s.setErr e).loadedLen = s.loadedLen := rfl
@[simp] theorem State.setErr_unimplPolicy (s : State) (e : ErrRecord) : (s.setErr e).unimplPolicy = s.unimplPolicy := rfl
@[simp] theorem State.setErr_out (s : State) (e : ErrRecord) : (s.setErr e).out = s.out := rfl

@[simp] theorem State.emit_regs (s : State) (o : Output) : (s.emit o).regs = s.regs := rfl
@[simp] theorem State.emit_ip (s : State) (o : Output) : (s.emit o).ip = s.ip := rfl
@[simp] theorem State.emit_zf (s : State) (o : Output) : (s.emit o).zf = s.zf := rfl
@[simp] theorem State.emit_sf (s : State) (o : Output) : (s.emit o).sf = s.sf := rfl
@[simp] theorem State.emit_mem (s : State) (o : Output) : (s.emit o).mem = s.mem := rfl
@[simp] theorem State.emit_cur (s : State) (o : Output) : (s.emit o).cur = s.cur := rfl
@[simp] theorem State.emit_es (s : State) (o : Output) : (s.emit o).es = s.es := rfl
@[simp] theorem State.emit_err (s : State) (o : Output) : (s.emit o).err = s.err := rfl
@[simp] theorem State.emit_loadedLen (s : State) (o : Output) : (s.emit o).loadedLen = s.loadedLen := rfl
@[simp] theorem State.emit_unimplPolicy (s : State) (o : Output) : (s.emit o).unimplPolicy = s.unimplPolicy := rfl
@[simp] theorem State.emit_out (s : State) (o : Output) : (s.emit o).out = s.out ++ [o] := rfl

end Sys2Proof.Machine
end

