-- ==== Sys2Proof/Laws/Registers.lean ====
section
/-! SUPPORT. The laws of the Register File (spec/10_state.md R20 to R25): reading a word register after a write, and
what a write through `Regs.write` does to each word register. -/

namespace Sys2Proof.Machine

/-- Reading a word register after writing one. -/
theorem Regs.get_set (r : Regs) (i j : Reg16) (v : Word) : (r.set i v).get j = if j = i then v else r.get j := by
  cases i <;> cases j <;> rfl

@[simp] theorem Regs.get_set_self (r : Regs) (i : Reg16) (v : Word) : (r.set i v).get i = v := by
  rw [Regs.get_set, if_pos rfl]

theorem Regs.get_set_ne (r : Regs) {i j : Reg16} (v : Word) (h : j ≠ i) : (r.set i v).get j = r.get j := by
  rw [Regs.get_set, if_neg h]

theorem mkWord_toNat (hi lo : Byte) : (mkWord hi lo).toNat = hi.toNat * 256 + lo.toNat := by
  rw [mkWord, BitVec.toNat_append, ← Nat.shiftLeft_add_eq_or_of_lt lo.isLt, Nat.shiftLeft_eq]

theorem loByte_toNat (v : Word) : (loByte v).toNat = v.toNat % 256 := by simp [loByte]

theorem hiByte_toNat (v : Word) : (hiByte v).toNat = v.toNat / 256 := by
  have := v.isLt
  simp [hiByte, Nat.shiftRight_eq_div_pow]
  omega

theorem zextByte_toNat (b : Byte) : (zextByte b).toNat = b.toNat := by
  have := b.isLt
  simp [zextByte]
  omega

@[simp] theorem loByte_mkWord (hi lo : Byte) : loByte (mkWord hi lo) = lo := by
  have := lo.isLt
  exact BitVec.eq_of_toNat_eq (by rw [loByte_toNat, mkWord_toNat]; omega)

@[simp] theorem hiByte_mkWord (hi lo : Byte) : hiByte (mkWord hi lo) = hi := by
  have := lo.isLt
  exact BitVec.eq_of_toNat_eq (by rw [hiByte_toNat, mkWord_toNat]; omega)

@[simp] theorem mkWord_hiByte_loByte (v : Word) : mkWord (hiByte v) (loByte v) = v :=
  BitVec.eq_of_toNat_eq (by rw [mkWord_toNat, hiByte_toNat, loByte_toNat]; omega)

@[simp] theorem loByte_zextByte (b : Byte) : loByte (zextByte b) = b := by
  have := b.isLt
  exact BitVec.eq_of_toNat_eq (by rw [loByte_toNat, zextByte_toNat]; omega)

/-- Every word register other than the one a code touches is left alone by a write. -/
theorem Regs.write_get_ne (r : Regs) (wide : Bool) (c : BitVec 3) (v : Word) {j : Reg16}
    (h : j ≠ parentReg wide c) : (r.write wide c v).get j = r.get j := by
  unfold Regs.write
  split
  · exact Regs.get_set_ne r v h
  · split <;> exact Regs.get_set_ne r _ h

/-- The word register a code touches, after a write. -/
theorem Regs.write_get_parent (r : Regs) (wide : Bool) (c : BitVec 3) (v : Word) :
    (r.write wide c v).get (parentReg wide c) =
      if wide then v
      else if isHighHalf c then mkWord (loByte v) (loByte (r.get (parentReg wide c)))
      else mkWord (hiByte (r.get (parentReg wide c))) (loByte v) := by
  unfold Regs.write
  split
  · simp
  · split <;> simp

end Sys2Proof.Machine
end

