-- ==== Sys2Proof/Laws/Decode.lean ====
section
/-! SUPPORT. The small laws of the Decoder and the encoder: each field that is encoded is taken back (spec/30_encoding.md
R103 to R108), and each table is inverted. -/

namespace Sys2Proof

@[simp] theorem BasePair.ofCode_code (b : BasePair) : BasePair.ofCode b.code = b := by cases b <;> rfl

@[simp] theorem BasePair.code_ofCode (c : BitVec 3) : (BasePair.ofCode c).code = c := by decide +revert

@[simp] theorem JumpOp.ofByte_opcode (j : JumpOp) : JumpOp.ofByte j.opcode = some j := by cases j <;> rfl

/-- Only its opcode stands for a jump. -/
theorem JumpOp.opcode_of_ofByte {b0 : Byte} {j : JumpOp} (h : JumpOp.ofByte b0 = some j) : j.opcode = b0 := by
  simpa [JumpOp.ofByte] using List.find?_some h

@[simp] theorem takeWord_encodeWord (w : Word) (rest : List Byte) :
    takeWord (encodeWord w ++ rest) = some (w, rest) := by
  simp [encodeWord, takeWord]

@[simp] theorem takeWord_bytes (w : Word) (rest : List Byte) :
    takeWord (loByte w :: hiByte w :: rest) = some (w, rest) := by
  simp [takeWord]

/-- An immediate that fits is taken back. -/
theorem takeImm_encodeImm {imm : Imm} {two : Bool} (h : imm.fits two = true) (rest : List Byte) :
    takeImm two (encodeImm imm ++ rest) = some (imm, rest) := by
  cases imm <;> cases two <;> simp_all [Imm.fits, takeImm, encodeImm]

theorem modField_append (m : BitVec 2) (g r : BitVec 3) : modField (m ++ g ++ r) = m := by decide +revert

theorem midField_append (m : BitVec 2) (g r : BitVec 3) : midField (m ++ g ++ r) = g := by decide +revert

theorem lowField_append (m : BitVec 2) (g r : BitVec 3) : lowField (m ++ g ++ r) = r := by decide +revert

/-- A mode byte and its displacement bytes give back the r/m operand and the `reg` field. -/
theorem takeRm_encodeModeByte {rm : RmOperand} (h : rm.wf = true) (reg : BitVec 3) (rest : List Byte) :
    ∃ b1 ds, encodeModeByte reg rm = b1 :: ds ∧ midField b1 = reg ∧
      takeRm (modField b1) (lowField b1) (ds ++ rest) = some (rm, rest) := by
  cases rm with
  | reg c => exact ⟨_, _, rfl, midField_append _ _ _, by rw [modField_append, lowField_append]; rfl⟩
  | mem b =>
    refine ⟨_, _, rfl, midField_append _ _ _, ?_⟩
    rw [modField_append, lowField_append]
    cases b <;> first | rfl | cases h
  | mem8 b disp =>
    exact ⟨_, _, rfl, midField_append _ _ _, by rw [modField_append, lowField_append]; simp [takeRm]⟩
  | mem16 b disp =>
    exact ⟨_, _, rfl, midField_append _ _ _, by rw [modField_append, lowField_append]; simp [takeRm]⟩
  | direct addr =>
    exact ⟨_, _, rfl, midField_append _ _ _, by rw [modField_append, lowField_append]; simp [takeRm]⟩

/-- The number of bytes of the mode byte and the displacement. -/
theorem encodeModeByte_length (reg : BitVec 3) (rm : RmOperand) :
    (encodeModeByte reg rm).length = 1 + rm.dispLen := by
  cases rm <;> rfl

/-- The number of data bytes of an immediate that fits. -/
theorem encodeImm_length {imm : Imm} {two : Bool} (h : imm.fits two = true) :
    (encodeImm imm).length = immLen two := by
  cases imm <;> cases two <;> simp_all [Imm.fits, encodeImm, encodeWord, immLen]

/-! ### First bytes: what each format's opcode bits are classified as, and the fields they give back -/

/-- The code of a sub-opcode (R99). -/
def ArithOp.code : ArithOp → BitVec 3
  | .add => 0b000#3
  | .or => 0b001#3
  | .adc => 0b010#3
  | .sbb => 0b011#3
  | .and => 0b100#3
  | .sub => 0b101#3
  | .cmp => 0b111#3

@[simp] theorem ArithOp.ofCode_code (op : ArithOp) : ArithOp.ofCode op.code = some op := by cases op <;> rfl

theorem ArithOp.code_of_ofCode {c : BitVec 3} {op : ArithOp} (h : ArithOp.ofCode c = some op) : op.code = c := by
  revert op; decide +revert

theorem classify_rmRegMov (d w : Bool) :
    classify (0b100010#6 ++ bit d ++ bit w) = some .rmRegMov ∧ bitAt (0b100010#6 ++ bit d ++ bit w) 1 = d ∧
      bitAt (0b100010#6 ++ bit d ++ bit w) 0 = w := by decide +revert

theorem classify_rmRegArith (op : ArithOp) (d w : Bool) :
    classify (0b00#2 ++ op.code ++ 0#1 ++ bit d ++ bit w) = some .rmRegArith ∧
      bitAt (0b00#2 ++ op.code ++ 0#1 ++ bit d ++ bit w) 1 = d ∧
      bitAt (0b00#2 ++ op.code ++ 0#1 ++ bit d ++ bit w) 0 = w ∧
      midField (0b00#2 ++ op.code ++ 0#1 ++ bit d ++ bit w) = op.code := by
  cases op <;> decide +revert

theorem classify_immRmArith (s w : Bool) :
    classify (0b100000#6 ++ bit s ++ bit w) = some .immRmArith ∧ bitAt (0b100000#6 ++ bit s ++ bit w) 1 = s ∧
      bitAt (0b100000#6 ++ bit s ++ bit w) 0 = w := by decide +revert

theorem classify_immAccArith (op : ArithOp) (w : Bool) :
    classify (0b00#2 ++ op.code ++ 0b10#2 ++ bit w) = some .immAccArith ∧
      bitAt (0b00#2 ++ op.code ++ 0b10#2 ++ bit w) 0 = w ∧
      midField (0b00#2 ++ op.code ++ 0b10#2 ++ bit w) = op.code := by
  cases op <;> decide +revert

theorem classify_immRmMov (w : Bool) :
    classify (0b1100011#7 ++ bit w) = some .immRmMov ∧ bitAt (0b1100011#7 ++ bit w) 0 = w := by decide +revert

theorem classify_immRegMov (w : Bool) (reg : BitVec 3) :
    classify (0b1011#4 ++ bit w ++ reg) = some .immRegMov ∧ bitAt (0b1011#4 ++ bit w ++ reg) 3 = w ∧
      lowField (0b1011#4 ++ bit w ++ reg) = reg := by decide +revert

theorem classify_accMemMov (t w : Bool) :
    classify (0b101000#6 ++ bit t ++ bit w) = some .accMemMov ∧ bitAt (0b101000#6 ++ bit t ++ bit w) 0 = w ∧
      bitAt (0b101000#6 ++ bit t ++ bit w) 1 = t := by decide +revert

@[simp] theorem classify_opcode (j : JumpOp) : classify j.opcode = some .jcc := by simp [classify]

/-! ### Sizes -/

theorem dispLen_le (rm : RmOperand) : rm.dispLen ≤ 2 := by cases rm <;> simp [RmOperand.dispLen]

theorem immLen_range (two : Bool) : 1 ≤ immLen two ∧ immLen two ≤ 2 := by cases two <;> simp [immLen]

/-- A size is between `MIN_INSN` and `MAX_INSN` (R160). -/
theorem size_range (i : Instr) : 2 ≤ i.size ∧ i.size ≤ 6 := by
  unfold Instr.size
  cases i.form with
  | rm d w reg rm => have := dispLen_le rm; simp only; omega
  | irm s w rm imm => have := dispLen_le rm; have := immLen_range (irmWordImm s w); simp only; omega
  | imv w rm imm => have := dispLen_le rm; have := immLen_range w; simp only; omega
  | ia w imm => have := immLen_range w; simp only; omega
  | ir w reg imm => have := immLen_range w; simp only; omega
  | ma t w addr => simp
  | j rel => simp

end Sys2Proof
end

