-- ==== Sys2Proof/Laws/Memory.lean ====
section
/-! SUPPORT. The laws of the Byte Store: what a read gives after a write (spec/20_memory.md R64), what an image reads as
(R61), and that every operation keeps the canonical form. -/

namespace Sys2Proof.Machine

@[simp] theorem Memory.read_nil (a : Nat) : Memory.read [] a = Memory.fill := rfl

theorem Memory.read_cons (b : Nat) (v : Byte) (rest : Memory) (a : Nat) :
    Memory.read ((b, v) :: rest) a = if a = b then v else Memory.read rest a := rfl

theorem Memory.wfFrom_cons {lo a : Nat} {v : Byte} {rest : Memory} :
    Memory.wfFrom lo ((a, v) :: rest) = true ↔
      lo ≤ a ∧ a < Config.memSize ∧ v ≠ Memory.fill ∧ Memory.wfFrom (a + 1) rest = true := by
  simp [Memory.wfFrom, and_assoc]

/-- A canonical tail that starts at `hi` also starts at any lower bound. -/
theorem Memory.wfFrom_mono {m : Memory} {lo hi : Nat} (h : Memory.wfFrom hi m = true) (hl : lo ≤ hi) :
    Memory.wfFrom lo m = true := by
  cases m with
  | nil => rfl
  | cons c rest =>
    obtain ⟨h1, h2, h3, h4⟩ := Memory.wfFrom_cons.mp h
    exact Memory.wfFrom_cons.mpr ⟨hl.trans h1, h2, h3, h4⟩

/-- Below its lower bound a canonical list has no cell. -/
theorem Memory.read_below {m : Memory} {lo a : Nat} (h : Memory.wfFrom lo m = true) (ha : a < lo) :
    Memory.read m a = Memory.fill := by
  induction m generalizing lo with
  | nil => rfl
  | cons c rest ih =>
    obtain ⟨h1, -, -, h4⟩ := Memory.wfFrom_cons.mp h
    rw [Memory.read_cons, if_neg (by omega)]
    exact ih h4 (by omega)

/-- A write keeps the canonical form from any bound at or below its address. -/
theorem Memory.wfFrom_write {m : Memory} {lo a : Nat} {v : Byte} (h : Memory.wfFrom lo m = true) (hl : lo ≤ a)
    (ha : a < Config.memSize) : Memory.wfFrom lo (m.write a v) = true := by
  induction m generalizing lo with
  | nil =>
    unfold Memory.write
    split
    · rfl
    · exact Memory.wfFrom_cons.mpr ⟨hl, ha, ‹_›, rfl⟩
  | cons c rest ih =>
    obtain ⟨h1, h2, h3, h4⟩ := Memory.wfFrom_cons.mp h
    unfold Memory.write
    split
    · split
      · exact h
      · exact Memory.wfFrom_cons.mpr ⟨hl, ha, ‹_›, Memory.wfFrom_cons.mpr ⟨by omega, h2, h3, h4⟩⟩
    · split
      · split
        · exact Memory.wfFrom_mono h4 (by omega)
        · exact Memory.wfFrom_cons.mpr ⟨hl, ha, ‹_›, ‹a = c.1› ▸ h4⟩
      · exact Memory.wfFrom_cons.mpr ⟨h1, h2, h3, ih h4 (by omega)⟩

/-- A write keeps the canonical form. -/
theorem Memory.write_wf {m : Memory} {a : Nat} (v : Byte) (h : m.wf = true) (ha : a < Config.memSize) :
    (m.write a v).wf = true := Memory.wfFrom_write h (Nat.zero_le a) ha

/-- Reading after a write, from any lower bound. -/
theorem Memory.read_write_from {m : Memory} {lo a : Nat} (v : Byte) (h : Memory.wfFrom lo m = true) (x : Nat) :
    Memory.read (m.write a v) x = if x = a then v else Memory.read m x := by
  induction m generalizing lo with
  | nil =>
    unfold Memory.write
    split
    · subst v; simp
    · rw [Memory.read_cons]
  | cons c rest ih =>
    obtain ⟨h1, -, -, h4⟩ := Memory.wfFrom_cons.mp h
    unfold Memory.write
    split
    · split
      · subst v
        split
        · subst x; rw [Memory.read_cons, if_neg (by omega)]; exact Memory.read_below h4 (by omega)
        · rfl
      · rw [Memory.read_cons]
    · split
      · subst a
        split
        · subst v
          rw [Memory.read_cons]
          split
          · subst x; exact Memory.read_below h4 (by omega)
          · rfl
        · rw [Memory.read_cons, Memory.read_cons]; split <;> rfl
      · rw [Memory.read_cons, Memory.read_cons, ih h4]
        by_cases hx : x = c.1
        · rw [if_pos hx, if_pos hx, if_neg (by omega)]
        · rw [if_neg hx, if_neg hx]

/-- Reading after a write of one byte. -/
theorem Memory.read_write {m : Memory} (a : Nat) (v : Byte) (h : m.wf = true) (x : Nat) :
    Memory.read (m.write a v) x = if x = a then v else Memory.read m x := Memory.read_write_from v h x

/-- A write of one byte leaves every other address alone, whatever the form of the list. -/
theorem Memory.read_write_ne (m : Memory) {a x : Nat} (v : Byte) (hx : x ≠ a) :
    Memory.read (m.write a v) x = Memory.read m x := by
  induction m with
  | nil =>
    unfold Memory.write
    split
    · rfl
    · rw [Memory.read_cons, if_neg hx]
  | cons c rest ih =>
    unfold Memory.write
    split
    · split
      · rfl
      · rw [Memory.read_cons, if_neg hx]
    · split
      · subst a
        split
        · rw [Memory.read_cons, if_neg hx]
        · rw [Memory.read_cons, Memory.read_cons, if_neg hx, if_neg hx]
      · rw [Memory.read_cons, Memory.read_cons, ih]

/-- An effective address lies in the store, with the byte after it (R66, R67). -/
theorem ea_in_store (addr : Word) : addr.toNat + 1 < Config.memSize := by
  have := addr.isLt
  simp only [Config.memSize]
  omega

/-- A data write keeps the canonical form. -/
theorem memWrite_wf {m : Memory} {addr : Nat} {wide : Bool} (v : Word) (h : m.wf = true)
    (ha : addr + accessLen wide ≤ Config.memSize) : (memWrite m addr wide v).wf = true := by
  cases wide <;> simp only [accessLen, if_true, Bool.false_eq_true, if_false] at ha
  · exact Memory.write_wf _ h (by omega)
  · exact Memory.write_wf _ (Memory.write_wf _ h (by omega)) (by omega)

/-- A data write at an effective address keeps the canonical form. -/
theorem memWrite_ea_wf {m : Memory} (addr : Word) (wide : Bool) (v : Word) (h : m.wf = true) :
    (memWrite m addr.toNat wide v).wf = true := by
  have := ea_in_store addr
  refine memWrite_wf v h ?_
  cases wide <;> simp [accessLen] <;> omega

/-- What one byte reads as after a data write: the bytes of the value, and every other byte as before. -/
theorem read_memWrite {m : Memory} {addr : Nat} {wide : Bool} (v : Word) (h : m.wf = true)
    (ha : addr + accessLen wide ≤ Config.memSize) (x : Nat) :
    Memory.read (memWrite m addr wide v) x =
      if x = addr then loByte v else if wide = true ∧ x = addr + 1 then hiByte v else m.read x := by
  cases wide <;> simp only [accessLen, if_true, Bool.false_eq_true, if_false] at ha
  · simp [memWrite, Memory.read_write _ _ h]
  · simp only [memWrite, if_true, true_and]
    rw [Memory.read_write _ _ (Memory.write_wf _ h (by omega)), Memory.read_write _ _ h]
    split <;> split <;> first | rfl | omega

/-- A data write leaves every byte outside its one or two alone, whatever the form of the list. -/
theorem read_memWrite_outside (m : Memory) {addr x : Nat} {wide : Bool} (v : Word)
    (hx : x < addr ∨ addr + accessLen wide ≤ x) : Memory.read (memWrite m addr wide v) x = m.read x := by
  cases wide <;> simp only [accessLen, if_true, Bool.false_eq_true, if_false] at hx
  · exact Memory.read_write_ne m _ (by omega)
  · exact (Memory.read_write_ne _ _ (by omega)).trans (Memory.read_write_ne m _ (by omega))

/-- Storing bytes one after the other keeps the canonical form. -/
theorem Memory.writeBytes_wf {bs : List Byte} {m : Memory} {a : Nat} (h : m.wf = true)
    (ha : a + bs.length ≤ Config.memSize) : (m.writeBytes a bs).wf = true := by
  induction bs generalizing m a with
  | nil => exact h
  | cons b bs ih =>
    rw [List.length_cons] at ha
    exact ih (Memory.write_wf b h (by omega)) (by omega)

/-- An image is loaded in canonical form. -/
theorem Memory.ofImage_wf {image : List Byte} {a : Nat} (ha : a + image.length ≤ Config.memSize) :
    Memory.wfFrom a (Memory.ofImage a image) = true := by
  induction image generalizing a with
  | nil => rfl
  | cons b bs ih =>
    rw [List.length_cons] at ha
    unfold Memory.ofImage
    split
    · exact Memory.wfFrom_mono (ih (by omega)) (by omega)
    · exact Memory.wfFrom_cons.mpr ⟨le_refl a, by omega, ‹_›, ih (by omega)⟩

/-- An image reads as its bytes, and as 0x00 elsewhere. -/
theorem Memory.read_ofImage (image : List Byte) (a x : Nat) :
    Memory.read (Memory.ofImage a image) x = if a ≤ x then image.getD (x - a) Memory.fill else Memory.fill := by
  induction image generalizing a with
  | nil => simp [Memory.ofImage]
  | cons b bs ih =>
    have step : ∀ v, (if x = a then v else Memory.read (Memory.ofImage (a + 1) bs) x) =
        if a ≤ x then (v :: bs).getD (x - a) Memory.fill else Memory.fill := by
      intro v
      rw [ih]
      rcases lt_trichotomy x a with h | h | h
      · rw [if_neg (by omega), if_neg (by omega), if_neg (by omega)]
      · subst h; simp
      · obtain ⟨k, hk⟩ : ∃ k, x - a = k + 1 := ⟨x - a - 1, by omega⟩
        rw [if_neg (by omega), if_pos (by omega), if_pos (by omega), hk, show x - (a + 1) = k by omega]
        rfl
    unfold Memory.ofImage
    split
    · subst b
      rw [← step]
      split
      · subst x; rw [ih, if_neg (by omega)]
      · rfl
    · rw [Memory.read_cons, step]

/-- The reset state's store is in canonical form. -/
theorem reset_mem_wf : State.reset.mem.wf = true := rfl

end Sys2Proof.Machine
end

