-- ==== Sys2Proof/Laws/Exec.lean ====
section
/-! SUPPORT. Said once: what the operand accesses, the effects, `exec` and `step` can do. Every instruction falls under
one of six cases by its operation, so that no proof has to look at the 46 arms again. -/

namespace Sys2Proof.Machine

/-- A write of a register or memory operand answers a next state that differs in the registers or the store alone. -/
theorem opWrite_cases {s : State} {wide : Bool} {o : Operand} {v : Word} {out : Host.Outcome State Fault Refusal}
    (h : opWrite s wide o v = out) :
    (∃ c, o = .register c ∧ out = .next (s.setRegs (s.regs.write wide c v))) ∨
    (∃ m, o = .memory m ∧ out = .next (s.setMem (memWrite s.mem (ea s.regs m).toNat wide v))) ∨
    (∃ x r, o = .immediate x r ∧ out = .refused .immediateDestination) := by
  subst h
  cases o with
  | register c => exact .inl ⟨c, rfl, rfl⟩
  | memory m => exact .inr (.inl ⟨m, rfl, rfl⟩)
  | immediate x r => exact .inr (.inr ⟨x, r, rfl, rfl⟩)

/-- An operand that can be a destination: a register or a memory operand. -/
def writableOperand : Operand → Bool
  | .register _ => true
  | .memory _ => true
  | .immediate _ _ => false

/-- The r/m operand is a register or a memory operand. -/
theorem rmOperand_writable (rm : RmOperand) : writableOperand rm.operand = true := by cases rm <;> rfl

/-- The destination of format RM is a register or a memory operand. -/
theorem dstRM_writable (d : Bool) (reg : BitVec 3) (rm : RmOperand) : writableOperand (dstRM d reg rm) = true := by
  cases d
  · exact rmOperand_writable rm
  · rfl

/-- `OpWrite` as a plain state, for a destination that can be written. -/
def written (s : State) (wide : Bool) (o : Operand) (v : Word) : State :=
  match o with
  | .register c => s.setRegs (s.regs.write wide c v)
  | .memory m => s.setMem (memWrite s.mem (ea s.regs m).toNat wide v)
  | .immediate _ _ => s

theorem opWrite_writable {s : State} {wide : Bool} {o : Operand} {v : Word} (h : writableOperand o = true) :
    opWrite s wide o v = .next (written s wide o v) := by
  cases o <;> first | rfl | cases h

/-- The five operations with an effect, by the operands of the record, and the others. -/
theorem exec_mov {i : Instr} (h : i.mnemonic = .mov) (s : State) :
    ∃ dst src, i.operands = [dst, src] ∧ writableOperand dst = true ∧
      exec i s = .next (written s i.wide dst (opRead s i.wide src)) := by
  cases i with
  | movRM d w reg rm => exact ⟨_, _, rfl, dstRM_writable d reg rm, opWrite_writable (dstRM_writable d reg rm)⟩
  | movIMV w rm imm => exact ⟨_, _, rfl, rmOperand_writable rm, opWrite_writable (rmOperand_writable rm)⟩
  | movIR w reg imm => exact ⟨_, _, rfl, rfl, rfl⟩
  | movLoad w addr => exact ⟨_, _, rfl, rfl, rfl⟩
  | movStore w addr => exact ⟨_, _, rfl, rfl, rfl⟩
  | _ => simp [Instr.mnemonic] at h

theorem storeWithFlags_writable {s : State} {wide : Bool} {o : Operand} {r : Word}
    (h : writableOperand o = true) : storeWithFlags wide o r s = .next ((written s wide o r).flagsFrom r) := by
  rw [storeWithFlags, opWrite_writable h]; rfl

theorem exec_add {i : Instr} (h : i.mnemonic = .add) (s : State) :
    ∃ dst src, i.operands = [dst, src] ∧ writableOperand dst = true ∧
      exec i s = .next ((written s i.wide dst (opRead s i.wide dst + opRead s i.wide src)).flagsFrom
        (opRead s i.wide dst + opRead s i.wide src)) := by
  cases i with
  | addRM d w reg rm => exact ⟨_, _, rfl, dstRM_writable d reg rm, storeWithFlags_writable (dstRM_writable d reg rm)⟩
  | addIRM x w rm imm => exact ⟨_, _, rfl, rmOperand_writable rm, storeWithFlags_writable (rmOperand_writable rm)⟩
  | addIA w imm => exact ⟨_, _, rfl, rfl, rfl⟩
  | _ => simp [Instr.mnemonic] at h

theorem exec_sub {i : Instr} (h : i.mnemonic = .sub) (s : State) :
    ∃ dst src, i.operands = [dst, src] ∧ writableOperand dst = true ∧
      exec i s = .next ((written s i.wide dst (opRead s i.wide dst - opRead s i.wide src)).flagsFrom
        (opRead s i.wide dst - opRead s i.wide src)) := by
  cases i with
  | subRM d w reg rm => exact ⟨_, _, rfl, dstRM_writable d reg rm, storeWithFlags_writable (dstRM_writable d reg rm)⟩
  | subIRM x w rm imm => exact ⟨_, _, rfl, rmOperand_writable rm, storeWithFlags_writable (rmOperand_writable rm)⟩
  | subIA w imm => exact ⟨_, _, rfl, rfl, rfl⟩
  | _ => simp [Instr.mnemonic] at h

theorem exec_cmp {i : Instr} (h : i.mnemonic = .cmp) (s : State) :
    ∃ dst src, i.operands = [dst, src] ∧
      exec i s = .next (s.flagsFrom (opRead s i.wide dst - opRead s i.wide src)) := by
  cases i with
  | cmpRM d w reg rm => exact ⟨_, _, rfl, rfl⟩
  | cmpIRM x w rm imm => exact ⟨_, _, rfl, rfl⟩
  | cmpIA w imm => exact ⟨_, _, rfl, rfl⟩
  | _ => simp [Instr.mnemonic] at h

theorem exec_jnz {i : Instr} (h : i.mnemonic = .jnz) (s : State) :
    ∃ rel, i = .jnz rel ∧ exec i s = .next (if s.zf then s else s.setIp (s.ip + rel.signExtend 16)) := by
  cases i with
  | jnz rel => exact ⟨rel, rfl, rfl⟩
  | _ => simp [Instr.mnemonic] at h

theorem exec_unimplemented {i : Instr} (h : i.mnemonic.executable = false) (s : State) :
    exec i s = .next (unimplemented i.mnemonic i.size s) := by
  cases i <;> first | rfl | cases h

/-- The executed operations are the five named ones. -/
theorem executable_cases {m : Mnemonic} (h : m.executable = true) :
    m = .mov ∨ m = .add ∨ m = .sub ∨ m = .cmp ∨ m = .jnz := by
  cases m <;> simp_all [Mnemonic.executable]

/-! ### The step, one equation for each engine state -/

theorem step_fetching_error {s : State} {k : DecodeFailure} (h : s.es = .fetching)
    (hd : decodeAt s s.ip.toNat = .error k) : step s = .next (takeFailure k s.ip.toNat .haltedError s) := by
  simp [step, macroStep, h, execStep, hd]

theorem step_fetching_ok {s : State} {i : Instr} (h : s.es = .fetching) (hd : decodeAt s s.ip.toNat = .ok i) :
    step s = applyInstr ⟨s.ip.toNat, i⟩ (enterApplying ⟨s.ip.toNat, i⟩ s) := by
  simp [step, macroStep, h, execStep, hd]

theorem step_decoded {s : State} {d : DecodedInstr} (h : s.es = .decoded d) :
    step s = applyInstr d (enterApplying d s) := by
  simp [step, macroStep, h]

theorem step_applying {s : State} {d : DecodedInstr} (h : s.es = .applying d) : step s = applyInstr d s := by
  simp [step, macroStep, h]

theorem step_traceFetching {s : State} (h : s.es = .traceFetching) : step s = .next (traceFetch s) := by
  simp [step, macroStep, h]

/-- The effect followed by what comes after it, when the effect answers a next state. -/
theorem applyInstr_of_exec {d : DecodedInstr} {s t : State} (h : exec d.instr s = .next t) :
    applyInstr d s = .next (concludeApplying t) := by
  rw [applyInstr, h]; rfl

end Sys2Proof.Machine
end

