-- ==== Sys2Proof/Laws/Engine.lean ====
section
/-! SUPPORT. What an effect leaves alone outside the registers, the flags, `IP` and the store, and what the rest of a
step can do: the lemmas a proof about `step` or `transition` cites. -/

namespace Sys2Proof.Machine

/-- `OpWrite` leaves everything but the registers and the store alone. -/
@[simp] theorem written_ip (s : State) (wide : Bool) (o : Operand) (v : Word) : (written s wide o v).ip = s.ip := by
  cases o <;> rfl
@[simp] theorem written_zf (s : State) (wide : Bool) (o : Operand) (v : Word) : (written s wide o v).zf = s.zf := by
  cases o <;> rfl
@[simp] theorem written_sf (s : State) (wide : Bool) (o : Operand) (v : Word) : (written s wide o v).sf = s.sf := by
  cases o <;> rfl
@[simp] theorem written_cur (s : State) (wide : Bool) (o : Operand) (v : Word) : (written s wide o v).cur = s.cur := by
  cases o <;> rfl
@[simp] theorem written_es (s : State) (wide : Bool) (o : Operand) (v : Word) : (written s wide o v).es = s.es := by
  cases o <;> rfl
@[simp] theorem written_err (s : State) (wide : Bool) (o : Operand) (v : Word) : (written s wide o v).err = s.err := by
  cases o <;> rfl
@[simp] theorem written_loadedLen (s : State) (wide : Bool) (o : Operand) (v : Word) :
    (written s wide o v).loadedLen = s.loadedLen := by cases o <;> rfl
@[simp] theorem written_unimplPolicy (s : State) (wide : Bool) (o : Operand) (v : Word) :
    (written s wide o v).unimplPolicy = s.unimplPolicy := by cases o <;> rfl
@[simp] theorem written_out (s : State) (wide : Bool) (o : Operand) (v : Word) : (written s wide o v).out = s.out := by
  cases o <;> rfl

/-- `OpWrite` keeps the canonical form of the store. -/
theorem written_wf {s : State} (wide : Bool) (o : Operand) (v : Word) (h : s.mem.wf = true) :
    (written s wide o v).mem.wf = true := by
  cases o
  · exact h
  · exact memWrite_ea_wf _ _ _ h
  · exact h

/-- Two register names that touch one word register without sharing a bit are its two halves. -/
theorem halves_of_not_overlap (wide : Bool) (c : BitVec 3) (wide' : Bool) (c' : BitVec 3)
    (h : namesOverlap wide c wide' c' = false) (hp : parentReg wide' c' = parentReg wide c) :
    wide = false ∧ wide' = false ∧ isHighHalf c' = !isHighHalf c := by
  revert h hp; decide +revert

/-- A register write leaves every name alone that shares no bit with the written one. -/
theorem regsSameExcept_write (r : Regs) (wide : Bool) (c : BitVec 3) (v : Word) :
    regsSameExcept r (r.write wide c v) wide c := by
  intro wide' c' h
  by_cases hp : parentReg wide' c' = parentReg wide c
  · obtain ⟨rfl, rfl, hh⟩ := halves_of_not_overlap wide c wide' c' h hp
    unfold Regs.read
    rw [hp, Regs.write_get_parent]
    cases hc : isHighHalf c <;> simp [hh, hc]
  · unfold Regs.read
    rw [Regs.write_get_ne _ _ _ _ hp]

/-- A data write leaves every byte outside its own alone. -/
theorem memSameOutside_memWrite (m : Memory) (a : Word) (wide : Bool) (v : Word) :
    memSameOutside m (memWrite m a.toNat wide v) a wide := fun _ hx => read_memWrite_outside m v hx

/-- What every effect does outside the registers, the flags and `IP`: it keeps the position of a trace, the
configuration, the outputs and the canonical form, and it leaves the engine state alone or is a refusal (R268). -/
theorem exec_control {i : Instr} {s t : State} (h : exec i s = .next t) :
    t.cur = s.cur ∧ t.loadedLen = s.loadedLen ∧ t.unimplPolicy = s.unimplPolicy ∧ t.out = s.out ∧
      (s.mem.wf = true → t.mem.wf = true) ∧
      ((t.es = s.es ∧ t.err = s.err) ∨
        (i.mnemonic.executable = false ∧ s.unimplPolicy = .refuse ∧ t = refuseUnimplemented i.mnemonic i.size s)) := by
  cases hx : i.mnemonic.executable with
  | true =>
    rcases executable_cases hx with hm | hm | hm | hm | hm
    · obtain ⟨dst, src, -, -, e⟩ := exec_mov hm s
      rw [e] at h; cases h
      exact ⟨by simp, by simp, by simp, by simp, written_wf _ _ _, .inl ⟨by simp, by simp⟩⟩
    · obtain ⟨dst, src, -, -, e⟩ := exec_add hm s
      rw [e] at h; cases h
      exact ⟨by simp [State.flagsFrom], by simp [State.flagsFrom], by simp [State.flagsFrom],
        by simp [State.flagsFrom], written_wf _ _ _, .inl ⟨by simp [State.flagsFrom], by simp [State.flagsFrom]⟩⟩
    · obtain ⟨dst, src, -, -, e⟩ := exec_sub hm s
      rw [e] at h; cases h
      exact ⟨by simp [State.flagsFrom], by simp [State.flagsFrom], by simp [State.flagsFrom],
        by simp [State.flagsFrom], written_wf _ _ _, .inl ⟨by simp [State.flagsFrom], by simp [State.flagsFrom]⟩⟩
    · obtain ⟨dst, src, -, e⟩ := exec_cmp hm s
      rw [e] at h; cases h
      exact ⟨rfl, rfl, rfl, rfl, id, .inl ⟨rfl, rfl⟩⟩
    · obtain ⟨rel, -, e⟩ := exec_jnz hm s
      rw [e] at h; cases h
      split <;> exact ⟨rfl, rfl, rfl, rfl, id, .inl ⟨rfl, rfl⟩⟩
  | false =>
    rw [exec_unimplemented hx, unimplemented] at h
    cases hp : s.unimplPolicy <;> rw [hp] at h <;> cases h
    · exact ⟨rfl, rfl, hp, rfl, id, .inr ⟨rfl, rfl, rfl⟩⟩
    · exact ⟨rfl, rfl, hp, rfl, id, .inl ⟨rfl, rfl⟩⟩

/-- What follows the effect keeps everything but the engine state, and emits at most the final report. -/
theorem concludeApplying_cases (s : State) :
    (s.es = .refused ∧ concludeApplying s = s) ∨
    (s.es ≠ .refused ∧ s.loadedLen ≤ s.ip.toNat ∧
      concludeApplying s = (s.emit (finalReport s)).setEs .haltedNormal) ∨
    (s.es ≠ .refused ∧ s.ip.toNat < s.loadedLen ∧ concludeApplying s = s.setEs .fetching) := by
  unfold concludeApplying
  split
  · exact .inl ⟨‹_›, rfl⟩
  · split
    · exact .inr (.inl ⟨‹_›, ‹_›, rfl⟩)
    · exact .inr (.inr ⟨‹_›, by omega, rfl⟩)

/-- The fetch in Execute mode. -/
theorem fetchDecode_cases (s : State) :
    (∃ i, decodeAt s s.ip.toNat = .ok i ∧ fetchDecode s = s.setEs (.decoded ⟨s.ip.toNat, i⟩)) ∨
    (∃ k, decodeAt s s.ip.toNat = .error k ∧ fetchDecode s = takeFailure k s.ip.toNat .haltedError s) := by
  unfold fetchDecode
  cases h : decodeAt s s.ip.toNat with
  | ok i => exact .inl ⟨i, rfl, rfl⟩
  | error k => exact .inr ⟨k, rfl, rfl⟩

/-- One turn of the Trace loop. -/
theorem traceFetch_cases (s : State) :
    (s.cur = s.loadedLen ∧ traceFetch s = s.setEs .traceDone) ∨
    (s.cur ≠ s.loadedLen ∧ ∃ i, decodeAt s s.cur = .ok i ∧
      traceFetch s = (s.emit (.line (render (DecodedInstr.record ⟨s.cur, i⟩)))).setCur (s.cur + i.size)) ∨
    (s.cur ≠ s.loadedLen ∧ ∃ k, decodeAt s s.cur = .error k ∧ traceFetch s = takeFailure k s.cur .traceError s) := by
  unfold traceFetch
  split
  · exact .inl ⟨‹_›, rfl⟩
  · cases h : decodeAt s s.cur with
    | ok i => exact .inr (.inl ⟨‹_›, i, rfl, rfl⟩)
    | error k => exact .inr (.inr ⟨‹_›, k, rfl, rfl⟩)

@[simp] theorem takeFailure_es (k : DecodeFailure) (p : Nat) (e : EngineState) (s : State) :
    (takeFailure k p e s).es = e := rfl
@[simp] theorem takeFailure_err (k : DecodeFailure) (p : Nat) (e : EngineState) (s : State) :
    (takeFailure k p e s).err = some ⟨failureKind k, p, none⟩ := rfl
@[simp] theorem takeFailure_regs (k : DecodeFailure) (p : Nat) (e : EngineState) (s : State) :
    (takeFailure k p e s).regs = s.regs := rfl
@[simp] theorem takeFailure_ip (k : DecodeFailure) (p : Nat) (e : EngineState) (s : State) :
    (takeFailure k p e s).ip = s.ip := rfl
@[simp] theorem takeFailure_mem (k : DecodeFailure) (p : Nat) (e : EngineState) (s : State) :
    (takeFailure k p e s).mem = s.mem := rfl
@[simp] theorem takeFailure_cur (k : DecodeFailure) (p : Nat) (e : EngineState) (s : State) :
    (takeFailure k p e s).cur = s.cur := rfl
@[simp] theorem takeFailure_loadedLen (k : DecodeFailure) (p : Nat) (e : EngineState) (s : State) :
    (takeFailure k p e s).loadedLen = s.loadedLen := rfl

@[simp] theorem enterApplying_es (d : DecodedInstr) (s : State) : (enterApplying d s).es = .applying d := rfl
@[simp] theorem enterApplying_ip (d : DecodedInstr) (s : State) :
    (enterApplying d s).ip = s.ip + BitVec.ofNat 16 d.instr.size := rfl
@[simp] theorem enterApplying_regs (d : DecodedInstr) (s : State) : (enterApplying d s).regs = s.regs := rfl
@[simp] theorem enterApplying_mem (d : DecodedInstr) (s : State) : (enterApplying d s).mem = s.mem := rfl
@[simp] theorem enterApplying_err (d : DecodedInstr) (s : State) : (enterApplying d s).err = s.err := rfl
@[simp] theorem enterApplying_cur (d : DecodedInstr) (s : State) : (enterApplying d s).cur = s.cur := rfl
@[simp] theorem enterApplying_loadedLen (d : DecodedInstr) (s : State) :
    (enterApplying d s).loadedLen = s.loadedLen := rfl

end Sys2Proof.Machine
end

