-- ==== Sys2Proof/Laws/PerInstr.lean ====
section
/-! SUPPORT. Statements for all instructions, made per constructor of Instr. `EncodedLength`: the encoder writes as many
bytes as the size of R113 says (spec/30_encoding.md). -/

namespace Sys2Proof.Laws.EncodedLength

/-- The encoding of an instruction has the instruction's size. -/
def Statement (i : Instr) : Prop := i.wf = true → (encode i).length = i.size

/-- Format RM. -/
theorem of_rm {i : Instr} {op : BitVec 6} {d w : Bool} {reg : BitVec 3} {rm : RmOperand}
    (hf : i.form = .rm d w reg rm) (he : encode i = encodeRM op d w reg rm) : Statement i := by
  intro _
  rw [he, Instr.size, hf]
  simp only [encodeRM, List.length_cons, encodeModeByte_length]
  omega

/-- Format IRM. -/
theorem of_irm {i : Instr} {op : BitVec 3} {x w : Bool} {rm : RmOperand} {imm : Imm}
    (hf : i.form = .irm x w rm imm) (he : encode i = encodeIRM op x w rm imm) : Statement i := by
  intro h
  rw [Instr.wf, hf, Form.wf, Bool.and_eq_true] at h
  rw [he, Instr.size, hf]
  simp only [encodeIRM, List.cons_append, List.length_cons, List.length_append, encodeModeByte_length,
    encodeImm_length h.2, irmWordImm]
  omega

/-- Format IA. -/
theorem of_ia {i : Instr} {op : BitVec 3} {w : Bool} {imm : Imm}
    (hf : i.form = .ia w imm) (he : encode i = encodeIA op w imm) : Statement i := by
  intro h
  rw [Instr.wf, hf] at h
  rw [he, Instr.size, hf]
  simp only [encodeIA, List.length_cons, encodeImm_length h]
  omega

theorem movRM (d w : Bool) (reg : BitVec 3) (rm : RmOperand) : Statement (.movRM d w reg rm) := of_rm rfl rfl

theorem movIMV (w : Bool) (rm : RmOperand) (imm : Imm) : Statement (.movIMV w rm imm) := by
  intro h
  rw [Instr.wf, Instr.form, Form.wf, Bool.and_eq_true] at h
  simp only [encode, Instr.size, Instr.form, List.cons_append, List.length_cons, List.length_append,
    encodeModeByte_length, encodeImm_length h.2]
  omega

theorem movIR (w : Bool) (reg : BitVec 3) (imm : Imm) : Statement (.movIR w reg imm) := by
  intro h
  simp only [encode, Instr.size, Instr.form, List.length_cons, encodeImm_length (show imm.fits w = true from h)]
  omega

theorem movLoad (w : Bool) (addr : Word) : Statement (.movLoad w addr) := fun _ => rfl

theorem movStore (w : Bool) (addr : Word) : Statement (.movStore w addr) := fun _ => rfl

theorem addRM (d w : Bool) (reg : BitVec 3) (rm : RmOperand) : Statement (.addRM d w reg rm) := of_rm rfl rfl

theorem addIRM (x w : Bool) (rm : RmOperand) (imm : Imm) : Statement (.addIRM x w rm imm) := of_irm rfl rfl

theorem addIA (w : Bool) (imm : Imm) : Statement (.addIA w imm) := of_ia rfl rfl

theorem orRM (d w : Bool) (reg : BitVec 3) (rm : RmOperand) : Statement (.orRM d w reg rm) := of_rm rfl rfl

theorem orIRM (x w : Bool) (rm : RmOperand) (imm : Imm) : Statement (.orIRM x w rm imm) := of_irm rfl rfl

theorem orIA (w : Bool) (imm : Imm) : Statement (.orIA w imm) := of_ia rfl rfl

theorem adcRM (d w : Bool) (reg : BitVec 3) (rm : RmOperand) : Statement (.adcRM d w reg rm) := of_rm rfl rfl

theorem adcIRM (x w : Bool) (rm : RmOperand) (imm : Imm) : Statement (.adcIRM x w rm imm) := of_irm rfl rfl

theorem adcIA (w : Bool) (imm : Imm) : Statement (.adcIA w imm) := of_ia rfl rfl

theorem sbbRM (d w : Bool) (reg : BitVec 3) (rm : RmOperand) : Statement (.sbbRM d w reg rm) := of_rm rfl rfl

theorem sbbIRM (x w : Bool) (rm : RmOperand) (imm : Imm) : Statement (.sbbIRM x w rm imm) := of_irm rfl rfl

theorem sbbIA (w : Bool) (imm : Imm) : Statement (.sbbIA w imm) := of_ia rfl rfl

theorem andRM (d w : Bool) (reg : BitVec 3) (rm : RmOperand) : Statement (.andRM d w reg rm) := of_rm rfl rfl

theorem andIRM (x w : Bool) (rm : RmOperand) (imm : Imm) : Statement (.andIRM x w rm imm) := of_irm rfl rfl

theorem andIA (w : Bool) (imm : Imm) : Statement (.andIA w imm) := of_ia rfl rfl

theorem subRM (d w : Bool) (reg : BitVec 3) (rm : RmOperand) : Statement (.subRM d w reg rm) := of_rm rfl rfl

theorem subIRM (x w : Bool) (rm : RmOperand) (imm : Imm) : Statement (.subIRM x w rm imm) := of_irm rfl rfl

theorem subIA (w : Bool) (imm : Imm) : Statement (.subIA w imm) := of_ia rfl rfl

theorem cmpRM (d w : Bool) (reg : BitVec 3) (rm : RmOperand) : Statement (.cmpRM d w reg rm) := of_rm rfl rfl

theorem cmpIRM (x w : Bool) (rm : RmOperand) (imm : Imm) : Statement (.cmpIRM x w rm imm) := of_irm rfl rfl

theorem cmpIA (w : Bool) (imm : Imm) : Statement (.cmpIA w imm) := of_ia rfl rfl

theorem jo (rel : Byte) : Statement (.jo rel) := fun _ => rfl

theorem jno (rel : Byte) : Statement (.jno rel) := fun _ => rfl

theorem jb (rel : Byte) : Statement (.jb rel) := fun _ => rfl

theorem jnb (rel : Byte) : Statement (.jnb rel) := fun _ => rfl

theorem je (rel : Byte) : Statement (.je rel) := fun _ => rfl

theorem jnz (rel : Byte) : Statement (.jnz rel) := fun _ => rfl

theorem jbe (rel : Byte) : Statement (.jbe rel) := fun _ => rfl

theorem ja (rel : Byte) : Statement (.ja rel) := fun _ => rfl

theorem js (rel : Byte) : Statement (.js rel) := fun _ => rfl

theorem jns (rel : Byte) : Statement (.jns rel) := fun _ => rfl

theorem jp (rel : Byte) : Statement (.jp rel) := fun _ => rfl

theorem jnp (rel : Byte) : Statement (.jnp rel) := fun _ => rfl

theorem jl (rel : Byte) : Statement (.jl rel) := fun _ => rfl

theorem jnl (rel : Byte) : Statement (.jnl rel) := fun _ => rfl

theorem jle (rel : Byte) : Statement (.jle rel) := fun _ => rfl

theorem jg (rel : Byte) : Statement (.jg rel) := fun _ => rfl

theorem loopnz (rel : Byte) : Statement (.loopnz rel) := fun _ => rfl

theorem loopz (rel : Byte) : Statement (.loopz rel) := fun _ => rfl

theorem loop (rel : Byte) : Statement (.loop rel) := fun _ => rfl

theorem jcxz (rel : Byte) : Statement (.jcxz rel) := fun _ => rfl

end Sys2Proof.Laws.EncodedLength
end

