-- ==== Sys2Proof/Laws/Render.lean ====
section
/-! SUPPORT. What the text of an instruction depends on (spec/46_text_rendering.md R280): its operation, its wide bit
and its operands, and nothing else. -/

namespace Sys2Proof.Machine

/-- One operand's text. -/
theorem operandText_congr {a b : Instruction} (hw : a.wide = b.wide) (ho : a.operands = b.operands) (o : Operand) :
    operandText a o = operandText b o := by
  unfold operandText
  split <;> simp [hw, ho, sizeKeyword]

/-- The operands' text. -/
theorem operandsText_congr {a b : Instruction} (hw : a.wide = b.wide) (ho : a.operands = b.operands)
    (os : List Operand) : operandsText a os = operandsText b os := by
  induction os with
  | nil => rfl
  | cons o rest ih =>
    cases rest with
    | nil => exact operandText_congr hw ho o
    | cons p rest => simp only [operandsText, operandText_congr hw ho o, ih]

/-- Two records that agree in operation, wide bit and operands have one text, whatever their address and size. -/
theorem render_congr {a b : Instruction} (hm : a.operation = b.operation) (hw : a.wide = b.wide)
    (ho : a.operands = b.operands) : render a = render b := by
  simp only [render, hm, ho, operandsText_congr hw ho]

end Sys2Proof.Machine
end

