-- ==== Sys2Proof/Tests/Slice0.lean ====
section
/-! SUPPORT. The model's own tests. Expected values are those of spec/95_test_vectors.md (section numbers are given) or
worked out by hand from the rules; then a concrete witness for the hypotheses of each statement that has any. -/

open Sys2Proof Sys2Proof.Machine

namespace Sys2Proof.Tests

/-! ### Helpers -/

/-- The state of a run right after reset with these arguments. -/
def loaded (image : List Byte) (mode : Mode) (policy : UnimplPolicy) : State :=
  { State.reset with
    mem := Memory.ofImage 0 image
    es := mode.initial
    loadedLen := image.length
    unimplPolicy := policy }

/-- An Execute run about to fetch the first instruction, default policy. -/
def prog (image : List Byte) : State := loaded image .execute .refuse

/-- A Trace run about to fetch the first instruction. -/
def traced (image : List Byte) : State := loaded image .trace .refuse

/-- The state an outcome answers, if it answers one. -/
def nextOf : Host.Outcome State Fault Refusal → Option State
  | .next s => some s
  | .fault _ => none
  | .refused _ => none

/-- A few registers of the state one step answers. -/
def regsAfter (s : State) (r : List Reg16) : Option (List Word) := (nextOf (step s)).map fun t => r.map t.regs.get

/-- The flags, `IP` and the engine state one step answers: ZF, SF, IP, ES. -/
def ctlAfter (s : State) : Option (Bool × Bool × Word × EngineState) :=
  (nextOf (step s)).map fun t => (t.zf, t.sf, t.ip, t.es)

/-- Some bytes of the store one step answers. -/
def memAfter (s : State) (a : List Nat) : Option (List Byte) := (nextOf (step s)).map fun t => a.map t.mem.read

/-- `ERR` after one step. -/
def errAfter (s : State) : Option (Option ErrRecord) := (nextOf (step s)).map fun t => t.err

/-- The outputs after one step. -/
def outAfter (s : State) : Option (List Output) := (nextOf (step s)).map fun t => t.out

/-- Reset registers with some values set. -/
def rs (ax cx dx bx : Word) (bp si di : Word := 0#16) : Regs := ⟨ax, cx, dx, bx, 0#16, bp, si, di⟩

/-! ### WellFormed: an ill-formed term for each check (R103, R104, R107) -/

theorem test_wf_bp_without_displacement : Instr.wf (.movRM true true 0#3 (.mem .bp)) = false := by decide
theorem test_wf_bp_without_displacement_irm : Instr.wf (.addIRM false true (.mem .bp) (.word 1#16)) = false := by decide
theorem test_wf_bp_without_displacement_imv : Instr.wf (.movIMV false (.mem .bp) (.byte 1#8)) = false := by decide
theorem test_wf_irm_word_immediate_with_sign_bit : Instr.wf (.subIRM true true (.reg 1#3) (.word 1#16)) = false := by decide
theorem test_wf_irm_word_immediate_not_wide : Instr.wf (.subIRM false false (.reg 1#3) (.word 1#16)) = false := by decide
theorem test_wf_irm_byte_immediate_when_wide : Instr.wf (.subIRM false true (.reg 1#3) (.byte 1#8)) = false := by decide
theorem test_wf_imv_immediate_length : Instr.wf (.movIMV true (.reg 1#3) (.byte 1#8)) = false := by decide
theorem test_wf_ir_immediate_length : Instr.wf (.movIR false 1#3 (.word 1#16)) = false := by decide
theorem test_wf_ia_immediate_length : Instr.wf (.cmpIA true (.byte 1#8)) = false := by decide
theorem test_wf_accepts : Instr.wf (.subIRM true true (.mem8 .bp 0#8) (.byte 1#8)) = true := by decide

/-! ### Decoding: for every constructor a word written out from its encoding (section 2.1; R95 to R101, R115) -/

theorem test_decode_movRM : decode [0x8B#8, 0x41#8, 0xDB#8] = .ok (.movRM true true 0#3 (.mem8 .bxDi 0xDB#8)) := by decide
theorem test_decode_movRM_to_rm : decode [0x88#8, 0xE5#8] = .ok (.movRM false false 4#3 (.reg 5#3)) := by decide
theorem test_decode_movRM_disp16 : decode [0x89#8, 0x8C#8, 0xD4#8, 0xFE#8] = .ok (.movRM false true 1#3 (.mem16 .si 0xFED4#16)) := by decide
theorem test_decode_movIMV : decode [0xC7#8, 0x85#8, 0x85#8, 0x03#8, 0x5B#8, 0x01#8] = .ok (.movIMV true (.mem16 .di 901#16) (.word 347#16)) := by decide
theorem test_decode_movIR : decode [0xB5#8, 0xF4#8] = .ok (.movIR false 5#3 (.byte 0xF4#8)) := by decide
theorem test_decode_movIR_wide : decode [0xB9#8, 0xF4#8, 0xFF#8] = .ok (.movIR true 1#3 (.word 0xFFF4#16)) := by decide
theorem test_decode_movLoad : decode [0xA1#8, 0x10#8, 0x02#8] = .ok (.movLoad true 0x0210#16) := by decide
theorem test_decode_movStore : decode [0xA2#8, 0x00#8, 0x02#8] = .ok (.movStore false 512#16) := by decide
theorem test_decode_addRM : decode [0x02#8, 0x46#8, 0x01#8] = .ok (.addRM true false 0#3 (.mem8 .bp 1#8)) := by decide
theorem test_decode_addIRM : decode [0x81#8, 0x06#8, 0xE8#8, 0x03#8, 0x2C#8, 0x01#8] = .ok (.addIRM false true (.direct 1000#16) (.word 300#16)) := by decide
theorem test_decode_addIRM_redundant : decode [0x82#8, 0xC3#8, 0x05#8] = .ok (.addIRM true false (.reg 3#3) (.byte 5#8)) := by decide
theorem test_decode_addIA : decode [0x05#8, 0xE8#8, 0x03#8] = .ok (.addIA true (.word 1000#16)) := by decide
theorem test_decode_orRM : decode [0x09#8, 0xC8#8] = .ok (.orRM false true 1#3 (.reg 0#3)) := by decide
theorem test_decode_orIRM : decode [0x81#8, 0x8C#8, 0x00#8, 0x01#8, 0xFF#8, 0x00#8] = .ok (.orIRM false true (.mem16 .si 256#16) (.word 255#16)) := by decide
theorem test_decode_orIA : decode [0x0D#8, 0x00#8, 0x80#8] = .ok (.orIA true (.word 0x8000#16)) := by decide
theorem test_decode_adcRM : decode [0x13#8, 0x06#8, 0x00#8, 0x01#8] = .ok (.adcRM true true 0#3 (.direct 256#16)) := by decide
theorem test_decode_adcIRM : decode [0x83#8, 0xD0#8, 0x00#8] = .ok (.adcIRM true true (.reg 0#3) (.byte 0#8)) := by decide
theorem test_decode_adcIA : decode [0x14#8, 0x01#8] = .ok (.adcIA false (.byte 1#8)) := by decide
theorem test_decode_sbbRM : decode [0x1B#8, 0x4C#8, 0xFF#8] = .ok (.sbbRM true true 1#3 (.mem8 .si 0xFF#8)) := by decide
theorem test_decode_sbbIRM : decode [0x81#8, 0xDA#8, 0x01#8, 0x00#8] = .ok (.sbbIRM false true (.reg 2#3) (.word 1#16)) := by decide
theorem test_decode_sbbIA : decode [0x1C#8, 0x7F#8] = .ok (.sbbIA false (.byte 127#8)) := by decide
theorem test_decode_andRM : decode [0x22#8, 0x27#8] = .ok (.andRM true false 4#3 (.mem .bx)) := by decide
theorem test_decode_andIRM : decode [0x80#8, 0xE4#8, 0x0F#8] = .ok (.andIRM false false (.reg 4#3) (.byte 15#8)) := by decide
theorem test_decode_andIA : decode [0x25#8, 0xF0#8, 0x0F#8] = .ok (.andIA true (.word 4080#16)) := by decide
theorem test_decode_subRM : decode [0x2A#8, 0x0E#8, 0x34#8, 0x12#8] = .ok (.subRM true false 1#3 (.direct 0x1234#16)) := by decide
theorem test_decode_subIRM : decode [0x81#8, 0xAF#8, 0x00#8, 0x80#8, 0x01#8, 0x00#8] = .ok (.subIRM false true (.mem16 .bx 0x8000#16) (.word 1#16)) := by decide
theorem test_decode_subIA : decode [0x2C#8, 0xE2#8] = .ok (.subIA false (.byte 0xE2#8)) := by decide
theorem test_decode_cmpRM : decode [0x38#8, 0xFD#8] = .ok (.cmpRM false false 7#3 (.reg 5#3)) := by decide
theorem test_decode_cmpIRM : decode [0x83#8, 0x7E#8, 0x04#8, 0x00#8] = .ok (.cmpIRM true true (.mem8 .bp 4#8) (.byte 0#8)) := by decide
theorem test_decode_cmpIA : decode [0x3D#8, 0xE8#8, 0x03#8] = .ok (.cmpIA true (.word 1000#16)) := by decide
theorem test_decode_jo : decode [0x70#8, 0x00#8] = .ok (.jo 0x00#8) := by decide
theorem test_decode_jno : decode [0x71#8, 0x7F#8] = .ok (.jno 0x7F#8) := by decide
theorem test_decode_jb : decode [0x72#8, 0x80#8] = .ok (.jb 0x80#8) := by decide
theorem test_decode_jnb : decode [0x73#8, 0xFE#8] = .ok (.jnb 0xFE#8) := by decide
theorem test_decode_je : decode [0x74#8, 0x05#8] = .ok (.je 0x05#8) := by decide
theorem test_decode_jnz : decode [0x75#8, 0xFB#8] = .ok (.jnz 0xFB#8) := by decide
theorem test_decode_jbe : decode [0x76#8, 0xFF#8] = .ok (.jbe 0xFF#8) := by decide
theorem test_decode_ja : decode [0x77#8, 0x01#8] = .ok (.ja 0x01#8) := by decide
theorem test_decode_js : decode [0x78#8, 0x10#8] = .ok (.js 0x10#8) := by decide
theorem test_decode_jns : decode [0x79#8, 0xF0#8] = .ok (.jns 0xF0#8) := by decide
theorem test_decode_jp : decode [0x7A#8, 0x02#8] = .ok (.jp 0x02#8) := by decide
theorem test_decode_jnp : decode [0x7B#8, 0x03#8] = .ok (.jnp 0x03#8) := by decide
theorem test_decode_jl : decode [0x7C#8, 0xFD#8] = .ok (.jl 0xFD#8) := by decide
theorem test_decode_jnl : decode [0x7D#8, 0x0A#8] = .ok (.jnl 0x0A#8) := by decide
theorem test_decode_jle : decode [0x7E#8, 0x7E#8] = .ok (.jle 0x7E#8) := by decide
theorem test_decode_jg : decode [0x7F#8, 0x81#8] = .ok (.jg 0x81#8) := by decide
theorem test_decode_loopnz : decode [0xE0#8, 0xFC#8] = .ok (.loopnz 0xFC#8) := by decide
theorem test_decode_loopz : decode [0xE1#8, 0x04#8] = .ok (.loopz 0x04#8) := by decide
theorem test_decode_loop : decode [0xE2#8, 0xF6#8] = .ok (.loop 0xF6#8) := by decide
theorem test_decode_jcxz : decode [0xE3#8, 0x00#8] = .ok (.jcxz 0x00#8) := by decide

/-- A byte after the instruction is not looked at (R141). -/
theorem test_decode_ignores_what_follows : decode [0x75#8, 0xFB#8, 0x90#8] = .ok (.jnz 0xFB#8) := by decide

/-! Failures (section 2.2). -/

theorem test_decode_empty : decode [] = .error .truncatedInstruction := by decide
theorem test_decode_nop : decode [0x90#8] = .error .unrecognizedOpcode := by decide
theorem test_decode_xor : decode [0x30#8, 0xC0#8] = .error .unrecognizedOpcode := by decide
theorem test_decode_sub_opcode_110 : decode [0x83#8, 0xF1#8] = .error .unrecognizedOpcode := by decide
theorem test_decode_imv_reg_field : decode [0xC6#8, 0x08#8, 0x01#8] = .error .unrecognizedOpcode := by decide
theorem test_decode_no_mode_byte : decode [0x81#8] = .error .truncatedInstruction := by decide
theorem test_decode_no_displacement : decode [0x8B#8, 0x06#8, 0x10#8] = .error .truncatedInstruction := by decide

/-! The word numbering of the opcode table (R125): `b0` in bits 15 to 8. -/

theorem test_table_word_mov : decodeTableWord 16 0x8800 = some (.movRM false false 0#3 (.mem .bxSi)) := by decide
theorem test_table_word_movIMV : decodeTableWord 16 0xC600 = some (.movIMV false (.mem .bxSi) (.byte 0#8)) := by decide
theorem test_table_word_cmpIRM : decodeTableWord 16 0x8038 = some (.cmpIRM false false (.mem .bxSi) (.byte 0#8)) := by decide
theorem test_table_word_jnz : decodeTableWord 16 0x75FB = some (.jnz 0xFB#8) := by decide
theorem test_table_word_refused : decodeTableWord 16 0x8030 = none := by decide

/-! The encoder, on the bytes of section 2.1. -/

theorem test_encode_movRM : encode (.movRM true true 0#3 (.mem8 .bxDi 0xDB#8)) = [0x8B#8, 0x41#8, 0xDB#8] := by decide
theorem test_encode_movIMV : encode (.movIMV true (.mem16 .di 901#16) (.word 347#16)) = [0xC7#8, 0x85#8, 0x85#8, 0x03#8, 0x5B#8, 0x01#8] := by decide
theorem test_encode_movIR : encode (.movIR false 5#3 (.byte 0xF4#8)) = [0xB5#8, 0xF4#8] := by decide
theorem test_encode_movStore : encode (.movStore false 512#16) = [0xA2#8, 0x00#8, 0x02#8] := by decide
theorem test_encode_addIRM : encode (.addIRM false true (.direct 1000#16) (.word 300#16)) = [0x81#8, 0x06#8, 0xE8#8, 0x03#8, 0x2C#8, 0x01#8] := by decide
theorem test_encode_sbbRM : encode (.sbbRM true true 1#3 (.mem8 .si 0xFF#8)) = [0x1B#8, 0x4C#8, 0xFF#8] := by decide
theorem test_encode_jnz : encode (.jnz 0xFB#8) = [0x75#8, 0xFB#8] := by decide

/-! ### Registers, memory, addresses (sections 1.3, 2.3, 2.4) -/

theorem test_write_low_byte : (rs 0x1234#16 0 0 0).write false 0#3 0x56#16 = rs 0x1256#16 0 0 0 := by decide
theorem test_write_high_byte : (rs 0x1234#16 0 0 0).write false 4#3 0x56#16 = rs 0x5634#16 0 0 0 := by decide
theorem test_write_bh : (rs 0 0 0 0xFFFF#16).write false 7#3 0#16 = rs 0 0 0 0x00FF#16 := by decide
theorem test_register_identity : registerIdentity false 4#3 = 4#4 ∧ registerIdentity true 4#3 = 12#4 := by decide
theorem test_read_high_byte : (rs 0 0 0x1234#16 0).read false 6#3 = 0x12#16 := by decide
theorem test_word_at_ffff : memRead [(0, 0x99#8), (0xFFFF, 0x11#8), (0x10000, 0x22#8)] 0xFFFF true = 0x2211#16 := by decide
theorem test_write_byte_reduces : memWrite [] 0x200 false 0x1FF#16 = [(0x200, 0xFF#8)] := by decide
theorem test_write_of_zero_is_unlisted : memWrite [(0x200, 0x12#8), (0x201, 0x34#8)] 0x200 true 0x5600#16 = [(0x201, 0x56#8)] := by decide
theorem test_ea_wraps : ea (rs 0 0 0 0xFFFF#16 0 0 2#16) ⟨some .bxDi, 0⟩ = 1#16 := by decide
theorem test_ea_negative : ea (rs 0 0 0 0 0x100#16 0x10#16) ⟨some .bpSi, -37⟩ = 0xEB#16 := by decide

/-! ### One step of each executed instruction (sections 2.5 to 2.7) -/

theorem test_mov_reg_from_memory_old_base :
    regsAfter { prog [0x8B#8, 0x18#8] with regs := rs 0 0 0 0x0010#16 0 2#16, mem := (((prog [0x8B#8, 0x18#8]).mem.write 0x12 0x78#8).write 0x13 0x56#8) } [.bx] = some [0x5678#16] := by decide
theorem test_mov_byte_register :
    regsAfter { prog [0x88#8, 0xE5#8] with regs := rs 0xAB00#16 0x1234#16 0 0 } [.ax, .cx] = some [0xAB00#16, 0xAB34#16] := by decide
theorem test_mov_imv_byte :
    memAfter { prog [0xC6#8, 0x03#8, 0xF4#8] with regs := rs 0 0 0 0 0x40#16 0 1#16, mem := ((prog [0xC6#8, 0x03#8, 0xF4#8]).mem.write 0x42 0x77#8) } [0x40, 0x41, 0x42] = some [0#8, 0xF4#8, 0x77#8] := by decide
theorem test_mov_ir_keeps_flags :
    ctlAfter { prog [0xB9#8, 0x02#8, 0x00#8] with zf := true, sf := true } = some (true, true, 3#16, .haltedNormal) := by decide
theorem test_mov_ir_high_byte :
    regsAfter { prog [0xB5#8, 0xF4#8] with regs := rs 0 0x1234#16 0 0 } [.cx] = some [0xF434#16] := by decide
theorem test_mov_load :
    regsAfter { prog [0xA0#8, 0x10#8, 0x00#8] with regs := rs 0x1234#16 0 0 0, mem := (((prog [0xA0#8, 0x10#8, 0x00#8]).mem.write 0x10 0xCD#8).write 0x11 0xAB#8) } [.ax] = some [0x12CD#16] := by decide
theorem test_mov_store_at_ffff :
    memAfter { prog [0xA3#8, 0xFF#8, 0xFF#8] with regs := rs 0x1234#16 0 0 0 } [0, 0xFFFF, 0x10000] = some [0xA3#8, 0x34#8, 0x12#8] := by decide
theorem test_add_rm_result :
    regsAfter { prog [0x03#8, 0x18#8] with regs := rs 0 0 0 0x0010#16 0 2#16, mem := (((prog [0x03#8, 0x18#8]).mem.write 0x12 0xF0#8).write 0x13 0xFF#8) } [.bx] = some [0#16] := by decide
theorem test_add_rm_byte_flags :
    ctlAfter { prog [0x00#8, 0xD8#8] with regs := rs 0x12FF#16 0 0 1#16 } = some (false, false, 2#16, .haltedNormal) := by decide
theorem test_add_irm_memory :
    memAfter { prog [0x83#8, 0x46#8, 0xFE#8, 0x7F#8] with regs := rs 0 0 0 0 0x102#16, mem := (((prog [0x83#8, 0x46#8, 0xFE#8, 0x7F#8]).mem.write 0x100 0x81#8).write 0x101 0x7F#8) } [0x100, 0x101] = some [0#8, 0x80#8] := by decide
theorem test_add_irm_flags :
    ctlAfter { prog [0x83#8, 0x46#8, 0xFE#8, 0x7F#8] with regs := rs 0 0 0 0 0x102#16, mem := (((prog [0x83#8, 0x46#8, 0xFE#8, 0x7F#8]).mem.write 0x100 0x81#8).write 0x101 0x7F#8) } = some (false, true, 4#16, .haltedNormal) := by decide
theorem test_add_ia :
    ctlAfter { prog [0x05#8, 0xE8#8, 0x03#8] with regs := rs 0xFC18#16 0 0 0 } = some (true, false, 3#16, .haltedNormal) := by decide
theorem test_sub_rm_byte :
    regsAfter { prog [0x28#8, 0xD8#8] with regs := rs 0x1203#16 0 0 5#16 } [.ax] = some [0x12FE#16] := by decide
theorem test_sub_rm_byte_flags :
    ctlAfter { prog [0x28#8, 0xD8#8] with regs := rs 0x1280#16 0 0 1#16 } = some (false, false, 2#16, .haltedNormal) := by decide
theorem test_sub_irm :
    memAfter (prog [0x83#8, 0x2E#8, 0x00#8, 0x01#8, 0x01#8]) [0x100, 0x101] = some [0xFF#8, 0xFF#8] := by decide
theorem test_sub_ia :
    regsAfter { prog [0x2C#8, 0xE2#8] with regs := rs 0x10#16 0 0 0 } [.ax] = some [0x2E#16] := by decide
theorem test_cmp_rm :
    ctlAfter { prog [0x39#8, 0xC3#8] with regs := rs 6#16 0 0 5#16 } = some (false, true, 2#16, .haltedNormal) := by decide
theorem test_cmp_rm_writes_nothing :
    regsAfter { prog [0x39#8, 0xC3#8] with regs := rs 6#16 0 0 5#16 } [.ax, .bx] = some [6#16, 5#16] := by decide
theorem test_cmp_irm :
    ctlAfter { prog [0x83#8, 0x3E#8, 0xE2#8, 0x12#8, 0x1D#8] with mem := ((prog [0x83#8, 0x3E#8, 0xE2#8, 0x12#8, 0x1D#8]).mem.write 0x12E2 0x1D#8) } = some (true, false, 5#16, .haltedNormal) := by decide
theorem test_cmp_ia :
    ctlAfter (prog [0x3D#8, 0x00#8, 0x80#8]) = some (false, true, 3#16, .haltedNormal) := by decide
theorem test_jnz_taken :
    ctlAfter { prog [0x90#8, 0x90#8, 0x90#8, 0x75#8, 0xFB#8, 0x90#8, 0x90#8] with ip := 3#16 } = some (false, false, 0#16, .fetching) := by decide
theorem test_jnz_falls_through :
    ctlAfter { prog [0x90#8, 0x90#8, 0x90#8, 0x75#8, 0xFB#8, 0x90#8, 0x90#8] with zf := true, ip := 3#16 } = some (true, false, 5#16, .fetching) := by decide
theorem test_jnz_wraps :
    ctlAfter (prog [0x75#8, 0xFD#8, 0x90#8]) = some (false, false, 0xFFFF#16, .haltedNormal) := by decide

/-! Instructions without execution semantics (section 2.8). -/

theorem test_or_is_refused :
    ctlAfter { prog [0x09#8, 0xC8#8] with regs := rs 0xF0#16 0x0F#16 0 0 } = some (false, false, 2#16, .refused) := by decide
theorem test_or_err :
    errAfter { prog [0x09#8, 0xC8#8] with regs := rs 0xF0#16 0x0F#16 0 0 } = some (some ⟨.unimplemented, 0, some .or⟩) := by decide
theorem test_loop_keeps_cx :
    regsAfter { prog [0xE2#8, 0xF6#8] with regs := rs 0 3#16 0 0 } [.cx] = some [3#16] := by decide
theorem test_je_err :
    errAfter { prog [0x90#8, 0x90#8, 0x90#8, 0x74#8, 0x05#8] with ip := 3#16 } = some (some ⟨.unimplemented, 3, some .je⟩) := by decide
theorem test_or_is_skipped_under_skip :
    ctlAfter { prog [0x09#8, 0xC8#8, 0x90#8] with unimplPolicy := .skip } = some (false, false, 2#16, .fetching) := by decide

/-- One of each of the twelve arithmetic constructors without semantics. -/
def arithWithoutSemantics : List Instr :=
  [.orRM true true 0#3 (.reg 1#3), .orIRM false false (.reg 1#3) (.byte 1#8), .orIA false (.byte 1#8),
   .adcRM true true 0#3 (.reg 1#3), .adcIRM false false (.reg 1#3) (.byte 1#8), .adcIA false (.byte 1#8),
   .sbbRM true true 0#3 (.reg 1#3), .sbbIRM false false (.reg 1#3) (.byte 1#8), .sbbIA false (.byte 1#8),
   .andRM true true 0#3 (.reg 1#3), .andIRM false false (.reg 1#3) (.byte 1#8), .andIA false (.byte 1#8)]

/-- One of each of the nineteen jumps without semantics. -/
def jumpsWithoutSemantics : List Instr := (JumpOp.all.filter (fun j => j != .jnz)).map fun j => j.instr 1#8

theorem test_all_without_semantics_are_refused :
    arithWithoutSemantics.length + jumpsWithoutSemantics.length = 31 ∧
      (arithWithoutSemantics ++ jumpsWithoutSemantics).all (fun i => (nextOf (exec i State.reset)).map (fun t => t.es) == some .refused) = true := by
  decide

/-! ### Rendering (section 2.1) -/

theorem test_render_keyword : render (DecodedInstr.record ⟨0, .addIRM true true (.mem8 .bp 0xFE#8) (.byte 0x7F#8)⟩) = "add word [bp - 2], 127" := by decide
theorem test_render_direct : render (DecodedInstr.record ⟨0, .movStore true 0x8000#16⟩) = "mov [32768], ax" := by decide
theorem test_render_pair : render (DecodedInstr.record ⟨0, .movRM true true 2#3 (.mem16 .bxSi 0x8000#16)⟩) = "mov dx, [bx + si - 32768]" := by decide
theorem test_render_jump : render (DecodedInstr.record ⟨7, .jb 0x80#8⟩) = "jb $-126" := by decide
theorem test_render_byte_registers : render (DecodedInstr.record ⟨0, .cmpRM false false 7#3 (.reg 5#3)⟩) = "cmp ch, bh" := by decide

/-! ### The engine: failures, Trace mode, the final report, the host's way to place an instruction (sections 2.9, 3) -/

theorem test_truncated_in_execute :
    ctlAfter { prog [0xB8#8, 0x01#8, 0x00#8, 0x8B#8, 0x86#8] with ip := 3#16 } = some (false, false, 3#16, .haltedError) := by decide
theorem test_truncated_err :
    errAfter { prog [0xB8#8, 0x01#8, 0x00#8, 0x8B#8, 0x86#8] with ip := 3#16 } = some (some ⟨.truncatedInstruction, 3, none⟩) := by decide
theorem test_self_modified_code :
    regsAfter { prog [0xC6#8, 0x06#8, 0x06#8, 0x00#8, 0x07#8, 0xB0#8, 0x01#8, 0x3C#8, 0x07#8] with mem := ((prog [0xC6#8, 0x06#8, 0x06#8, 0x00#8, 0x07#8, 0xB0#8, 0x01#8, 0x3C#8, 0x07#8]).mem.write 0x6 0x07#8), ip := 5#16 } [.ax] = some [7#16] := by decide
theorem test_trace_step : outAfter (traced [0x75#8, 0xFB#8, 0x75#8]) = some [.line "jnz $-3"] := by decide
theorem test_trace_error : errAfter { traced [0x75#8, 0xFB#8, 0x75#8] with cur := 2 } =
    some (some ⟨.truncatedInstruction, 2, none⟩) := by decide
theorem test_trace_of_nothing : (nextOf (step (traced []))).map (fun t => t.es) = some .traceDone := by decide
theorem test_final_report : outAfter (prog [0xB8#8, 0x34#8, 0x12#8]) =
    some [.line "mov ax, 4660", .report (rs 0x1234#16 0 0 0) 3#16 false false] := by decide
theorem test_reset_runs_into_an_empty_program : errAfter State.reset = some (some ⟨.truncatedInstruction, 0, none⟩) := by decide
theorem test_fetch_word_runs_first : ctlAfter (State.reset.withFetchWord 16 0x75FB) = some (false, false, 0xFFFD#16, .haltedNormal) := by decide
theorem test_fetch_word_mov : regsAfter ({ State.reset with regs := rs 0 0 0 7#16 }.withFetchWord 16 0x89D9) [.cx] = some [7#16] := by decide

/-! ### Witnesses: the hypotheses of each statement that has any, met together by concrete values -/

/-- A store in canonical form that lists something. -/
def m1 : Memory := [(0x12, 0x34#8), (0xFFFFF, 0x01#8)]

/-- A state with that store and something in the registers. -/
def s1 : State := { State.reset with regs := rs 1#16 2#16 3#16 0x10#16 0x40#16 2#16 1#16, mem := m1 }

theorem test_witness_BootLoadsTheImageAndZeroFill :
    boot [0xB9#8, 0x02#8, 0x00#8] .execute .refuse = .next (prog [0xB9#8, 0x02#8, 0x00#8]) ∧
      2 < [0xB9#8, 0x02#8, 0x00#8].length ∧ [0xB9#8, 0x02#8, 0x00#8].length ≤ 3 ∧ 0xFFFFF < 2 ^ 20 :=
  ⟨rfl, by decide, by decide, by decide⟩
theorem image_of_length (n : Nat) : ∃ image : List Byte, image.length = n := ⟨List.replicate n 0#8, List.length_replicate⟩
theorem test_witness_BootAcceptsExactlyWhatFits :
    (∃ image : List Byte, 2 ^ 20 < image.length) ∧
      (∃ image : List Byte, image.length ≤ 2 ^ 20 ∧ 2 ^ 16 < image.length) ∧
      (∃ image : List Byte, image.length = 2 ^ 16 ∧ image.length ≤ (if Mode.execute = .execute then 2 ^ 16 else 2 ^ 20)) ∧
      (∃ image : List Byte, image.length = 2 ^ 20 ∧ image.length ≤ (if Mode.trace = .execute then 2 ^ 16 else 2 ^ 20)) := by
  obtain ⟨a, ha⟩ := image_of_length (2 ^ 20 + 1)
  obtain ⟨b, hb⟩ := image_of_length (2 ^ 16 + 1)
  obtain ⟨c, hc⟩ := image_of_length (2 ^ 16)
  obtain ⟨d, hd⟩ := image_of_length (2 ^ 20)
  exact ⟨⟨a, by omega⟩, ⟨b, by omega, by omega⟩, ⟨c, hc, by rw [if_pos rfl]; omega⟩,
    ⟨d, hd, by rw [if_neg (by decide)]; omega⟩⟩
theorem test_witness_register_codes : (3#3).toNat < 4 ∧ 4 ≤ (4#3).toNat ∧ 4 ≤ (7#3).toNat := by decide
theorem test_witness_RegisterWrite_values :
    (nextOf (opWrite s1 true (.register 7#3) 0xABCD#16)).map (fun t => t.regs.di) = some 0xABCD#16 ∧
      (nextOf (opWrite s1 false (.register 3#3) 0xABCD#16)).map (fun t => t.regs.bx) = some 0x00CD#16 ∧
      (nextOf (opWrite s1 false (.register 4#3) 0xABCD#16)).map (fun t => t.regs.ax) = some 0xCD01#16 := by decide
theorem test_witness_memory_bounds : m1.wf = true ∧ 0xFFFFF + 1 ≤ 2 ^ 20 ∧ 0xFFFFE + 2 ≤ 2 ^ 20 := by decide
theorem test_witness_MemoryWrite_state : s1.mem.wf = true := by decide
theorem test_witness_CanonicalStoresThatReadAlikeAreEqual :
    m1.wf = true ∧ (m1.write 5 7#8).write 5 0#8 = m1 ∧
      ∀ a, a < 2 ^ 20 → m1.read a = Memory.read ((m1.write 5 7#8).write 5 0#8) a := by
  refine ⟨by decide, by decide, fun a _ => ?_⟩
  rw [show (m1.write 5 7#8).write 5 0#8 = m1 by decide]
theorem test_witness_MovIntoRegisterCopiesAndFrames :
    Instr.mnemonic (.movRM true true 3#3 (.mem .bxSi)) = .mov ∧
      Instr.operands (.movRM true true 3#3 (.mem .bxSi)) = [.register 3#3, .memory ⟨some .bxSi, 0⟩] ∧
      Instr.operands (.movIMV false (.reg 4#3) (.byte 0xFF#8)) = [.register 4#3, .immediate (-1) false] ∧
      Instr.operands (.movIR true 7#3 (.word 0xFFFF#16)) = [.register 7#3, .immediate 65535 false] ∧
      Instr.operands (.movLoad false 0xFFFF#16) = [.register 0#3, .memory ⟨none, 65535⟩] := by decide
theorem test_witness_MovIntoMemoryCopiesAndFrames :
    Instr.mnemonic (.movRM false true 3#3 (.mem .bxSi)) = .mov ∧
      Instr.operands (.movRM false true 3#3 (.mem .bxSi)) = [.memory ⟨some .bxSi, 0⟩, .register 3#3] ∧
      Instr.operands (.movIMV false (.direct 0xFFFF#16) (.byte 0x80#8)) =
        [.memory ⟨none, 65535⟩, .immediate (-128) false] ∧
      Instr.operands (.movStore true 0xFFFF#16) = [.memory ⟨none, 65535⟩, .register 0#3] ∧ s1.mem.wf = true := by decide
theorem test_witness_arithmetic_operands :
    Instr.operands (.addRM true false 4#3 (.reg 0#3)) = [.register 4#3, .register 0#3] ∧
      Instr.wide (.addRM true false 4#3 (.reg 0#3)) = false ∧
      Instr.mnemonic (.addRM true false 4#3 (.reg 0#3)) = .add ∧
      Instr.operands (.subIRM true true (.mem8 .bp 0#8) (.byte 0xFF#8)) =
        [.memory ⟨some .bp, 0⟩, .immediate (-1) false] ∧
      Instr.mnemonic (.subIRM true true (.mem8 .bp 0#8) (.byte 0xFF#8)) = .sub ∧
      Instr.operands (.cmpIA false (.byte 5#8)) = [.register 0#3, .immediate 5 false] ∧
      Instr.mnemonic (.cmpIA false (.byte 5#8)) = .cmp ∧ Instr.wide (.cmpIA false (.byte 5#8)) = false ∧
      Instr.operands (.addIA true (.word 5#16)) = [.register 0#3, .immediate 5 false] ∧
      Instr.mnemonic (.subIA false (.byte 5#8)) = .sub ∧ Instr.wide (.subIA false (.byte 5#8)) = false ∧
      Instr.operands (.subIA false (.byte 5#8)) = [.register 0#3, .immediate 5 false] ∧ s1.mem.wf = true := by decide
theorem test_witness_exec_next :
    (nextOf (exec (.addIA true (.word 5#16)) s1)).isSome = true ∧ Instr.mnemonic (.addIA true (.word 5#16)) = .add ∧
      (nextOf (exec (.movIR true 1#3 (.word 5#16)) s1)).isSome = true ∧
      Instr.mnemonic (.movIR true 1#3 (.word 5#16)) ≠ .jnz ∧ (nextOf (exec (.loop 5#8) s1)).isSome = true := by decide
/-- An effect of each kind that changes something: a register, memory at 0xFFFF, `IP`, the flags, `ES`. -/
theorem test_witness_OnlyTheDestinationIsWritten :
    (nextOf (exec (.movIR false 4#3 (.byte 5#8)) s1)).map (fun t => t.regs.ax) = some 0x0501#16 ∧
      (nextOf (exec (.movStore true 0xFFFF#16) s1)).map (fun t => [0xFFFF, 0x10000].map t.mem.read) =
        some [1#8, 0#8] ∧
      (nextOf (exec (.jnz 0xFF#8) s1)).map (fun t => t.ip) = some 0xFFFF#16 ∧
      (nextOf (exec (.cmpIA true (.word 1#16)) s1)).map (fun t => t.zf) = some true ∧
      (nextOf (exec (.loop 5#8) s1)).map (fun t => t.es) = some .refused := by decide
/-- The two boundaries of each width at which the canonical value of a field changes its sign, R109, R110. -/
theorem test_witness_OperandsOfEachFormatAreItsFields :
    Instr.operands (.subIRM true true (.mem8 .bp 0x7F#8) (.byte 0x80#8)) =
        [.memory ⟨some .bp, 127⟩, .immediate (-128) false] ∧
      Instr.operands (.movIMV true (.mem16 .di 0x8000#16) (.word 0x8000#16)) =
        [.memory ⟨some .di, -32768⟩, .immediate 32768 false] ∧
      Instr.operands (.movRM true false 7#3 (.mem16 .si 0x7FFF#16)) = [.register 7#3, .memory ⟨some .si, 32767⟩] ∧
      Instr.operands (.cmpRM false false 7#3 (.direct 0xFFFF#16)) = [.memory ⟨none, 65535⟩, .register 7#3] ∧
      Instr.operands (.jcxz 0x80#8) = [.immediate (-128) true] := by decide
theorem test_operand_read :
    opRead s1 true (.immediate (-1) false) = 0xFFFF#16 ∧ opRead s1 false (.immediate (-1) false) = 0xFF#16 ∧
      opRead s1 false (.immediate 65535 false) = 0xFF#16 ∧ opRead s1 true (.memory ⟨some .bxDi, 1⟩) = 0x34#16 ∧
      opRead { s1 with regs := rs 0x1234#16 0 0 0 } false (.register 4#3) = 0x12#16 := by decide
theorem test_witness_JnzAddsItsOffsetWhenZeroFlagClear :
    s1.zf = false ∧ ({ s1 with zf := true } : State).zf = true := by decide
theorem test_witness_InstructionsWithoutSemanticsAreRefused :
    Mnemonic.executable (Instr.mnemonic (.je 5#8)) = false ∧
      Mnemonic.executable (Instr.mnemonic (.orIA false (.byte 5#8))) = false ∧ s1.unimplPolicy = .refuse := by decide
theorem test_witness_InstructionsWithoutSemanticsAreSkippedUnderSkip :
    Mnemonic.executable (Instr.mnemonic (.adcRM true true 0#3 (.mem .bx))) = false ∧
      ({ s1 with unimplPolicy := .skip } : State).unimplPolicy = .skip := by decide
theorem test_witness_DecodeOfEncodeIsTheInstruction :
    Instr.wf (.addIRM false true (.mem16 .bp 0x8000#16) (.word 0xFFFF#16)) = true ∧
      Instr.wf (.movRM true true 0#3 (.mem .bx)) = true ∧ Instr.wf (.movIMV false (.reg 7#3) (.byte 0x80#8)) = true := by
  decide
theorem test_witness_TruncatedEncodingIsTruncatedInstruction :
    Instr.wf (.movIMV true (.mem16 .di 901#16) (.word 347#16)) = true ∧
      0 < Instr.size (.movIMV true (.mem16 .di 901#16) (.word 347#16)) ∧
      5 < Instr.size (.movIMV true (.mem16 .di 901#16) (.word 347#16)) := by decide
theorem test_witness_EncodeOfDecodeIsTheBytes :
    decode [0xC7#8, 0x85#8, 0x85#8, 0x03#8, 0x5B#8, 0x01#8] = .ok (.movIMV true (.mem16 .di 901#16) (.word 347#16)) := by
  decide
theorem test_witness_SizeIsAFunctionOfTheFirstTwoBytes :
    (decode [0x75#8, 0xFB#8] = .ok (.jnz 0xFB#8) ∧ classify 0x75#8 = some .jcc) ∧
      (decode [0x04#8, 0x05#8] = .ok (.addIA false (.byte 5#8)) ∧ classify 0x04#8 = some .immAccArith) ∧
      (decode [0xBF#8, 0xFF#8, 0xFF#8] = .ok (.movIR true 7#3 (.word 0xFFFF#16)) ∧ classify 0xBF#8 = some .immRegMov) ∧
      (decode [0xA3#8, 0x0F#8, 0x00#8] = .ok (.movStore true 15#16) ∧ classify 0xA3#8 = some .accMemMov) ∧
      (decode [0x8B#8, 0xC0#8] = .ok (.movRM true true 0#3 (.reg 0#3)) ∧ classify 0x8B#8 = some .rmRegMov) ∧
      (decode [0x3B#8, 0x5E#8, 0x00#8] = .ok (.cmpRM true true 3#3 (.mem8 .bp 0#8)) ∧
        classify 0x3B#8 = some .rmRegArith) ∧
      (decode [0x83#8, 0x3E#8, 0xE2#8, 0x12#8, 0x1D#8] = .ok (.cmpIRM true true (.direct 0x12E2#16) (.byte 0x1D#8)) ∧
        classify 0x83#8 = some .immRmArith) ∧
      (decode [0xC6#8, 0x46#8, 0xFF#8, 0x80#8] = .ok (.movIMV false (.mem8 .bp 0xFF#8) (.byte 0x80#8)) ∧
        classify 0xC6#8 = some .immRmMov) := by decide
theorem test_witness_FamiliesAreDisjoint :
    Family.test .jcc 0xE3#8 = true ∧ Family.test .rmRegArith 0x00#8 = true ∧ Family.test .immAccArith 0x3D#8 = true := by
  decide
theorem test_witness_DecodeDependsOnItsOwnBytesOnly :
    decodeAt (prog [0x90#8, 0xB9#8, 0x02#8, 0x00#8, 0x90#8]) 1 = .ok (.movIR true 1#3 (.word 2#16)) ∧
      1 + Instr.size (.movIR true 1#3 (.word 2#16)) ≤ (prog [0xFF#8, 0xB9#8, 0x02#8, 0x00#8]).loadedLen ∧
      ∀ a, 1 ≤ a → a < 1 + Instr.size (.movIR true 1#3 (.word 2#16)) →
        (prog [0xFF#8, 0xB9#8, 0x02#8, 0x00#8]).mem.read a = (prog [0x90#8, 0xB9#8, 0x02#8, 0x00#8, 0x90#8]).mem.read a := by
  refine ⟨by decide, by decide, fun a h1 h2 => ?_⟩
  have h3 : a = 1 ∨ a = 2 ∨ a = 3 := by
    simp only [Instr.size, Instr.form, immLen] at h2
    simp at h2
    omega
  rcases h3 with rfl | rfl | rfl <;> decide
theorem test_witness_SizeKeywordExactlyWithoutRegister :
    Instr.form (.cmpIRM true true (.mem8 .bp 4#8) (.byte 0xFF#8)) = .irm true true (.mem8 .bp 4#8) (.byte 0xFF#8) ∧
      RmOperand.operand (.mem8 .bp 4#8) = .memory ⟨some .bp, 4⟩ ∧
      Instr.form (.movIMV false (.mem .bx) (.byte 0#8)) = .imv false (.mem .bx) (.byte 0#8) ∧
      RmOperand.operand (.mem .bx) = .memory ⟨some .bx, 0⟩ ∧
      Instr.form (.movRM true true 0#3 (.mem .bx)) = .rm true true 0#3 (.mem .bx) ∧
      Instr.form (.movStore false 0xFFFF#16) = .ma true false 0xFFFF#16 ∧
      EffectiveAddress.mk none 65535 = ⟨none, (0xFFFF#16).toNat⟩ := by decide
/-- Boundary values of the clauses: R122 b (a zero and a small displacement) and c (the largest immediate below 128). -/
theorem test_witness_RenderIsTheSameForRedundantEncodings :
    (127#8).toNat < 128 ∧ (0#8).toNat < 128 ∧
      RmOperand.mem .bx = .mem .bx ∧ RmOperand.mem8 .bx 0#8 = .mem8 .bx 0#8 ∧
      RmOperand.mem16 .bp 0xFF80#16 = .mem16 .bp ((0x80#8).signExtend 16) := by decide
theorem test_render_redundant_displacement :
    render (DecodedInstr.record ⟨0, .subIRM true true (.mem8 .bx 0#8) (.byte 127#8)⟩) = "sub word [bx], 127" ∧
      render (DecodedInstr.record ⟨0, .subIRM false true (.mem16 .bx 0#16) (.word 127#16)⟩) = "sub word [bx], 127" := by
  decide
theorem test_witness_step_of_a_decoded_instruction :
    (prog [0x89#8, 0xD9#8, 0x09#8, 0xC8#8]).es = .fetching ∧
      decodeAt (prog [0x89#8, 0xD9#8, 0x09#8, 0xC8#8]) 0 = .ok (.movRM false true 3#3 (.reg 1#3)) ∧
      decodeAt (prog [0x89#8, 0xD9#8, 0x09#8, 0xC8#8]) 2 = .ok (.orRM false true 1#3 (.reg 0#3)) ∧
      (prog [0x89#8, 0xD9#8, 0x09#8, 0xC8#8]).unimplPolicy = .refuse ∧
      Mnemonic.executable (Instr.mnemonic (.orRM false true 1#3 (.reg 0#3))) = false := by decide
theorem test_witness_DecodeFailureHaltsPrecisely :
    (prog [0x0F#8]).es = .fetching ∧ decodeAt (prog [0x0F#8]) 0 = .error .unrecognizedOpcode ∧
      (traced [0x0F#8]).es = .traceFetching ∧ (traced [0x0F#8]).cur < (traced [0x0F#8]).loadedLen ∧
      decodeAt (traced [0x0F#8]) 0 = .error .unrecognizedOpcode ∧
      decodeAt State.reset 0 = .error .truncatedInstruction := by decide
theorem test_witness_TransitionsAreThoseOfTheTable :
    (nextOf (transition (prog [0x89#8, 0xD9#8]))).map (fun t => t.es) =
        some (.decoded ⟨0, .movRM false true 3#3 (.reg 1#3)⟩) ∧
      (nextOf (transition (prog [0x90#8]))).map (fun t => t.es) = some .haltedError ∧
      (nextOf (transition { prog [0x89#8, 0xD9#8] with es := .decoded ⟨0, .movRM false true 3#3 (.reg 1#3)⟩ })).map
        (fun t => t.ip) = some 2#16 ∧
      (nextOf (transition { prog [0x89#8, 0xD9#8] with
        ip := 2#16, es := .applying ⟨0, .movRM false true 3#3 (.reg 1#3)⟩ })).map (fun t => t.es) = some .haltedNormal ∧
      (nextOf (transition { prog [0x89#8, 0xD9#8, 0x90#8] with
        ip := 2#16, es := .applying ⟨0, .movRM false true 3#3 (.reg 1#3)⟩ })).map (fun t => t.es) = some .fetching ∧
      (nextOf (transition { prog [0x09#8, 0xC8#8] with
        ip := 2#16, es := .applying ⟨0, .orRM false true 1#3 (.reg 0#3)⟩ })).map (fun t => t.es) = some .refused := by
  decide
theorem test_witness_TransitionsAreThoseOfTheTable_trace :
    (traced []).cur ≤ (traced []).loadedLen ∧ (traced [0x75#8, 0xFB#8]).cur < (traced [0x75#8, 0xFB#8]).loadedLen ∧
      (nextOf (transition (traced []))).map (fun t => t.es) = some .traceDone ∧
      (nextOf (transition (traced [0x75#8, 0xFB#8]))).map (fun t => (t.es, t.cur)) = some (.traceFetching, 2) ∧
      (nextOf (transition (traced [0x90#8]))).map (fun t => t.es) = some .traceError := by decide
theorem test_witness_TraceStepPrintsAndAdvances :
    (traced []).cur = (traced []).loadedLen ∧ (traced [0x75#8, 0xFB#8]).cur < (traced [0x75#8, 0xFB#8]).loadedLen ∧
      decodeAt (traced [0x75#8, 0xFB#8]) 0 = .ok (.jnz 0xFB#8) ∧ (traced [0x75#8, 0xFB#8]).es = .traceFetching ∧
      (traced [0x75#8, 0xFB#8]).cur ≤ (traced [0x75#8, 0xFB#8]).loadedLen := by decide
theorem test_witness_FetchReadsTheStoreAsItIs : 5 < min 6 (10 - 4) ∧ 0 < min 6 (10 - 9) := by decide
theorem test_witness_steps_in_both_modes :
    (nextOf (step (prog [0x75#8, 0xFB#8]))).isSome = true ∧ (prog [0x75#8, 0xFB#8]).mode = .execute ∧
      (nextOf (step (traced [0x75#8, 0xFB#8]))).isSome = true ∧ (traced [0x75#8, 0xFB#8]).mode = .trace := by decide
theorem test_witness_EndedRunStaysAsItIs :
    State.ended { State.reset with es := .haltedNormal } = true ∧ State.ended { State.reset with es := .refused } = true ∧
      State.ended { State.reset with es := .traceError } = true := by decide
/-- The invariant at a state from which a step decodes and applies an instruction, and at one in the middle of a step. -/
theorem test_witness_StepKeepsTheMachineInvariant :
    (prog [0x89#8, 0xD9#8]).Inv ∧
      ({ prog [0x89#8, 0xD9#8] with es := .decoded ⟨0, .movRM false true 3#3 (.reg 1#3)⟩ } : State).Inv := by
  constructor
  · refine And.intro (by decide) (And.intro (by decide) ?_)
    exact And.intro (by decide) (Or.inl (by decide))
  · refine And.intro (by decide) (And.intro (by decide) ?_)
    exact And.intro (by decide) (And.intro (by decide) (by decide))
/-- A reached state in each of the five ends. -/
theorem test_witness_EndsOfReachableRuns :
    (∃ s, Reachable s ∧ s.es = .haltedNormal) ∧ (∃ s, Reachable s ∧ s.es = .haltedError) ∧
      (∃ s, Reachable s ∧ s.es = .refused) ∧ (∃ s, Reachable s ∧ s.es = .traceDone) ∧
      (∃ s, Reachable s ∧ s.es = .traceError) :=
  ⟨⟨_, .step _ _ (.boot [0x89#8, 0xD9#8] .execute .refuse _ rfl) rfl, rfl⟩,
    ⟨_, .step _ _ (.boot [0x0F#8] .execute .refuse _ rfl) rfl, rfl⟩,
    ⟨_, .step _ _ (.boot [0x09#8, 0xC8#8] .execute .refuse _ rfl) rfl, rfl⟩,
    ⟨_, .step _ _ (.boot [] .trace .refuse _ rfl) rfl, rfl⟩,
    ⟨_, .step _ _ (.boot [0x0F#8] .trace .refuse _ rfl) rfl, rfl⟩⟩
theorem test_witness_TraceRunLeavesRegistersAndMemory :
    boot [0x75#8, 0xFB#8] .trace .refuse = .next (traced [0x75#8, 0xFB#8]) ∧ 1 < [0x75#8, 0xFB#8].length :=
  ⟨rfl, by decide⟩
theorem test_witness_TraceAlwaysTerminates :
    (traced [0x75#8, 0xFB#8, 0x75#8]).es = .traceFetching ∧
      (traced [0x75#8, 0xFB#8, 0x75#8]).cur ≤ (traced [0x75#8, 0xFB#8, 0x75#8]).loadedLen := by decide
theorem test_witness_TraceOfAValidProgramListsIt :
    (∀ i ∈ [Instr.movIR true 1#3 (.word 2#16), .subIRM true true (.reg 1#3) (.byte 1#8), .jnz 0xFB#8], i.wf = true) ∧
      boot ([Instr.movIR true 1#3 (.word 2#16), .subIRM true true (.reg 1#3) (.byte 1#8), .jnz 0xFB#8].flatMap encode)
        .trace .refuse = .next (traced [0xB9#8, 0x02#8, 0x00#8, 0x83#8, 0xE9#8, 0x01#8, 0x75#8, 0xFB#8]) :=
  ⟨by decide, rfl⟩

end Sys2Proof.Tests
end

section
/-! SUPPORT. A register name, wide, low half or high half: the word register it touches (spec/10_state.md R20, R21), and
what `Regs.read` answers (R24) and `Regs.write` makes (R25) of it. `c < 4` is a low half, `4 ≤ c` a high half. -/

namespace Sys2Proof.Machine

theorem parentReg_byte_of_lt {c : BitVec 3} (hc : c.toNat < 4) : parentReg false c = regOfCode c := by
  revert hc; decide +revert

theorem parentReg_byte_of_ge {c : BitVec 3} (hc : 4 ≤ c.toNat) : parentReg false c = regOfCode (c - 4#3) := by
  revert hc; decide +revert

theorem isHighHalf_of_lt {c : BitVec 3} (hc : c.toNat < 4) : isHighHalf c = false := by
  revert hc; decide +revert

theorem isHighHalf_of_ge {c : BitVec 3} (hc : 4 ≤ c.toNat) : isHighHalf c = true := by
  revert hc; decide +revert

@[simp] theorem Regs.read_wide (r : Regs) (c : BitVec 3) : r.read true c = r.get (regOfCode c) := rfl

theorem Regs.read_low (r : Regs) {c : BitVec 3} (hc : c.toNat < 4) :
    r.read false c = zextByte (loByte (r.get (regOfCode c))) := by
  simp [Regs.read, isHighHalf_of_lt hc, parentReg_byte_of_lt hc]

theorem Regs.read_high (r : Regs) {c : BitVec 3} (hc : 4 ≤ c.toNat) :
    r.read false c = zextByte (hiByte (r.get (regOfCode (c - 4#3)))) := by
  simp [Regs.read, isHighHalf_of_ge hc, parentReg_byte_of_ge hc]

@[simp] theorem Regs.write_wide (r : Regs) (c : BitVec 3) (v : Word) :
    r.write true c v = r.set (regOfCode c) v := rfl

theorem Regs.write_low (r : Regs) {c : BitVec 3} (v : Word) (hc : c.toNat < 4) :
    r.write false c v = r.set (regOfCode c) (mkWord (hiByte (r.get (regOfCode c))) (loByte v)) := by
  simp [Regs.write, isHighHalf_of_lt hc, parentReg_byte_of_lt hc]

theorem Regs.write_high (r : Regs) {c : BitVec 3} (v : Word) (hc : 4 ≤ c.toNat) :
    r.write false c v =
      r.set (regOfCode (c - 4#3)) (mkWord (loByte v) (loByte (r.get (regOfCode (c - 4#3))))) := by
  simp [Regs.write, isHighHalf_of_ge hc, parentReg_byte_of_ge hc]

/-- A byte read is below 256, whichever half it names. -/
theorem Regs.read_byte_lt (r : Regs) (c : BitVec 3) : (r.read false c).toNat < 256 := by
  obtain hc | hc := Nat.lt_or_ge c.toNat 4
  · rw [Regs.read_low r hc, zextByte_toNat]
    exact (loByte _).isLt
  · rw [Regs.read_high r hc, zextByte_toNat]
    exact (hiByte _).isLt

/-- The high half that belongs to the low half `c` (R21). -/
theorem high_code_of_low {c : BitVec 3} (hc : c.toNat < 4) : 4 ≤ (c + 4#3).toNat ∧ c + 4#3 - 4#3 = c := by
  revert hc; decide +revert

theorem Regs.read_high_of_low (r : Regs) {c : BitVec 3} (hc : c.toNat < 4) :
    r.read false (c + 4#3) = zextByte (hiByte (r.get (regOfCode c))) := by
  obtain ⟨hhigh, hback⟩ := high_code_of_low hc
  rw [Regs.read_high r hhigh, hback]

theorem Regs.write_high_of_low (r : Regs) {c : BitVec 3} (v : Word) (hc : c.toNat < 4) :
    r.write false (c + 4#3) v = r.set (regOfCode c) (mkWord (loByte v) (loByte (r.get (regOfCode c)))) := by
  obtain ⟨hhigh, hback⟩ := high_code_of_low hc
  rw [Regs.write_high r v hhigh, hback]

/-! ### The halves of a word as mask, shift and or -/

theorem zextByte_loByte (v : Word) : zextByte (loByte v) = v &&& 0x00FF#16 :=
  BitVec.eq_of_toNat_eq (by
    rw [zextByte_toNat, loByte_toNat, BitVec.toNat_and]
    exact (Nat.and_two_pow_sub_one_eq_mod v.toNat 8).symm)

theorem zextByte_hiByte (v : Word) : zextByte (hiByte v) = v >>> 8 :=
  BitVec.eq_of_toNat_eq (by
    rw [zextByte_toNat, hiByte_toNat, BitVec.toNat_ushiftRight, Nat.shiftRight_eq_div_pow])

theorem mkWord_eq_shiftLeft_or (hi lo : Byte) : mkWord hi lo = zextByte hi <<< 8 ||| zextByte lo := by
  rw [mkWord, BitVec.append_def, BitVec.shiftLeftZeroExtend_eq, BitVec.setWidth'_eq]; rfl

/-! ### The write of a register operand -/

/-- When the write of a name stores `x` in the word register `p`, the operand write answers a state that differs in `p`
alone. -/
theorem opWrite_register_of_set {s : State} {wide : Bool} {c : BitVec 3} {v : Word} {p : Reg16} {x : Word}
    (h : s.regs.write wide c v = s.regs.set p x) :
    ∃ t, opWrite s wide (.register c) v = .next t ∧ t = { s with regs := t.regs } ∧
      t.regs.get p = x ∧ ∀ j, j ≠ p → t.regs.get j = s.regs.get j := by
  refine ⟨s.setRegs (s.regs.set p x), ?_, rfl, Regs.get_set_self .., fun j => Regs.get_set_ne _ _⟩
  rw [← h]; rfl

end Sys2Proof.Machine
end

section
/-! PROOFS. The statements of spec/10_state.md on the register accessors (R23 to R25). -/

open Sys2Proof Sys2Proof.Machine

namespace Sys2Proof.Proofs

/-- Settles O5: each view is one `Regs.set` of its word register, with the other half put back. -/
theorem registerWriteChangesTheNamedViewOnly : Obligations.RegisterWriteChangesTheNamedViewOnly := by
  intro s c v
  refine ⟨opWrite_register_of_set (Regs.write_wide ..), fun hc => ?low, fun hc => ?high⟩
  case low =>
    obtain ⟨t, hnext, hframe, hget, hothers⟩ := opWrite_register_of_set (Regs.write_low s.regs v hc)
    refine ⟨t, hnext, hframe, ?_, hothers⟩
    rw [hget, mkWord_toNat, hiByte_toNat, loByte_toNat]
  case high =>
    obtain ⟨t, hnext, hframe, hget, hothers⟩ := opWrite_register_of_set (Regs.write_high s.regs v hc)
    refine ⟨t, hnext, hframe, ?_, hothers⟩
    rw [hget, mkWord_toNat, loByte_toNat, loByte_toNat]

/-- Settles O6: the parent word after each write is a `mkWord` of one old and one new half, or the word written. -/
theorem byteRegistersAliasTheirParentWord : Obligations.ByteRegistersAliasTheirParentWord := by
  intro r c v hc
  have readLow (q : Regs) := q.read_low hc
  have readHigh (q : Regs) := q.read_high_of_low hc
  rw [r.write_low v hc, r.write_high_of_low v hc, r.write_wide]
  refine ⟨?lowThenWord, ?highThenWord, ?lowKeepsHigh, ?highKeepsLow, ?wordSetsLow, ?wordSetsHigh⟩
  case lowThenWord => rw [Regs.read_wide, Regs.get_set_self, mkWord_eq_shiftLeft_or, readHigh, zextByte_loByte v]
  case highThenWord => rw [Regs.read_wide, Regs.get_set_self, mkWord_eq_shiftLeft_or, readLow, zextByte_loByte v]
  case lowKeepsHigh => rw [readHigh, readHigh, Regs.get_set_self, hiByte_mkWord]
  case highKeepsLow => rw [readLow, readLow, Regs.get_set_self, loByte_mkWord]
  case wordSetsLow => rw [readLow, Regs.get_set_self, zextByte_loByte]
  case wordSetsHigh => rw [readHigh, Regs.get_set_self, zextByte_hiByte]

/-- Settles O4: a byte read is the zero-extended half of the register the code touches. -/
theorem registerReadGivesTheNamedView : Obligations.RegisterReadGivesTheNamedView := by
  intro r c
  refine ⟨Regs.read_wide r c, fun hc => ?_, fun hc => ?_, Regs.read_byte_lt r c⟩
  · rw [Regs.read_low r hc, zextByte_toNat, loByte_toNat]
  · rw [Regs.read_high r hc, zextByte_toNat, hiByte_toNat]

end Sys2Proof.Proofs
end

section
/-! SUPPORT. What the accesses of the Byte Store answer in numbers (spec/20_memory.md R63, R64), and when a reset creates
a run and of what state (spec/70_reset_and_hazards.md R340). -/

namespace Sys2Proof.Machine

theorem memRead_byte_toNat (m : Memory) (a : Nat) : (memRead m a false).toNat = (m.read a).toNat := zextByte_toNat _

theorem memRead_word_toNat (m : Memory) (a : Nat) :
    (memRead m a true).toNat = (m.read a).toNat + 256 * (m.read (a + 1)).toNat := by
  have h : (memRead m a true).toNat = (m.read (a + 1)).toNat * 256 + (m.read a).toNat := mkWord_toNat _ _
  omega

/-- The addressed byte after a data write of either width. -/
theorem read_memWrite_low_toNat {m : Memory} {a : Nat} {wide : Bool} (v : Word) (h : m.wf = true)
    (ha : a + accessLen wide ≤ Config.memSize) : ((memWrite m a wide v).read a).toNat = v.toNat % 256 := by
  rw [read_memWrite v h ha, if_pos rfl, loByte_toNat]

/-- The byte after the addressed one, after a data write of a word. -/
theorem read_memWrite_high_toNat {m : Memory} {a : Nat} (v : Word) (h : m.wf = true)
    (ha : a + accessLen true ≤ Config.memSize) : ((memWrite m a true v).read (a + 1)).toNat = v.toNat / 256 := by
  rw [read_memWrite v h ha, if_neg (Nat.succ_ne_self a), if_pos ⟨rfl, rfl⟩, hiByte_toNat]

/-- Reset creates a run exactly when the image fits the store and its mode, and what it creates. -/
theorem boot_eq_next_iff {image : List Byte} {mode : Mode} {policy : UnimplPolicy} {s : State} :
    boot image mode policy = .next s ↔
      image.length ≤ Config.memSize ∧ image.length ≤ mode.maxLen ∧
        s = { State.reset with
          mem := Memory.ofImage 0 image
          es := mode.initial
          loadedLen := image.length
          unimplPolicy := policy } := by
  unfold boot
  split
  case isTrue htoo => simp only [reduceCtorEq, false_iff]; omega
  case isFalse hfits =>
    split
    case isTrue hlong => simp only [reduceCtorEq, false_iff]; omega
    case isFalse hmode =>
      rw [Host.Outcome.next.injEq, eq_comm]
      exact ⟨fun hs => ⟨by omega, by omega, hs⟩, fun ⟨_, _, hs⟩ => hs⟩

/-- The store of a run that reset created. -/
theorem boot_mem {image : List Byte} {mode : Mode} {policy : UnimplPolicy} {s : State}
    (h : boot image mode policy = .next s) : s.mem = Memory.ofImage 0 image := by
  obtain ⟨-, -, rfl⟩ := boot_eq_next_iff.mp h
  rfl

/-- What a byte of the store reads as after reset (R61). -/
theorem boot_read {image : List Byte} {mode : Mode} {policy : UnimplPolicy} {s : State}
    (h : boot image mode policy = .next s) (a : Nat) : s.mem.read a = image.getD a Memory.fill := by
  rw [boot_mem h, Memory.read_ofImage, if_pos (Nat.zero_le a), Nat.sub_zero]

end Sys2Proof.Machine
end

section
/-! PROOFS. The statements of spec/20_memory.md on the contents of the Byte Store and its two accessors (R61, R63, R64). -/

open Sys2Proof Sys2Proof.Machine

namespace Sys2Proof.Proofs

/-- Settles O2: after reset every address reads as the image's byte there, and past the image's end as the fill. -/
theorem bootLoadsTheImageAndZeroFill : Obligations.BootLoadsTheImageAndZeroFill := by
  intro image mode policy s hboot
  refine ⟨fun a ha => ?loaded, fun a ha _ => ?filled⟩
  case loaded => rw [boot_read hboot, List.getD_eq_getElem _ _ ha, List.getElem?_eq_getElem ha]
  case filled => rw [boot_read hboot, List.getD_eq_default _ _ ha]; rfl

/-- Settles O8: `read_memWrite` at the addressed bytes, `read_memWrite_outside` at every other one. -/
theorem memoryWriteChangesItsBytesOnly : Obligations.MemoryWriteChangesItsBytesOnly := by
  intro s a v hwf
  refine ⟨fun ha => ⟨_, rfl, State.setMem_regs .., ?byte⟩, fun ha => ⟨_, rfl, State.setMem_regs .., ?word⟩⟩ <;>
    simp only [State.setMem_mem]
  case byte =>
    refine ⟨read_memWrite_low_toNat v hwf ha, fun x hx => read_memWrite_outside s.mem v ?_⟩
    simp only [accessLen, Bool.false_eq_true, if_false]
    omega
  case word =>
    refine ⟨read_memWrite_low_toNat v hwf ha, read_memWrite_high_toNat v hwf ha,
      fun x hx hx' => read_memWrite_outside s.mem v ?_⟩
    simp only [accessLen, if_true]
    omega

/-- Settles O7: a byte is zero-extended, and a word is the `mkWord` of the next byte and the addressed one. -/
theorem memoryReadIsLittleEndian : Obligations.MemoryReadIsLittleEndian := by
  intro m a
  exact ⟨fun _ => memRead_byte_toNat m a, fun _ => memRead_word_toNat m a⟩

end Sys2Proof.Proofs
end

section
/-! SUPPORT. What each decoding path answers when it succeeds (spec/30_encoding.md R145 to R153), which format the
constructors of a sub-opcode or a jump have, and the displacement length of a mode byte (R113, R149). -/

namespace Sys2Proof

@[simp] theorem JumpOp.form_instr (op : JumpOp) (rel : Byte) : (op.instr rel).form = .j rel := by cases op <;> rfl

@[simp] theorem ArithOp.form_instrRM (op : ArithOp) (d w : Bool) (reg : BitVec 3) (rm : RmOperand) :
    (op.instrRM d w reg rm).form = .rm d w reg rm := by cases op <;> rfl

@[simp] theorem ArithOp.form_instrIRM (op : ArithOp) (s w : Bool) (rm : RmOperand) (imm : Imm) :
    (op.instrIRM s w rm imm).form = .irm s w rm imm := by cases op <;> rfl

@[simp] theorem ArithOp.form_instrIA (op : ArithOp) (w : Bool) (imm : Imm) :
    (op.instrIA w imm).form = .ia w imm := by cases op <;> rfl

@[simp] theorem orTruncated_eq_ok_iff {o : Option Instr} {i : Instr} : orTruncated o = .ok i ↔ o = some i := by
  cases o <;> simp [orTruncated]

/-! ### Success of each path -/

theorem decodeJump_eq_ok_iff {b0 : Byte} {bs : List Byte} {i : Instr} :
    decodeJump b0 bs = .ok i ↔
      ∃ op rel rest, JumpOp.ofByte b0 = some op ∧ bs = rel :: rest ∧ op.instr rel = i := by
  cases h : JumpOp.ofByte b0 <;> cases bs <;> simp [decodeJump, h]

theorem decodeAccArith_eq_ok_iff {b0 : Byte} {bs : List Byte} {i : Instr} :
    decodeAccArith b0 bs = .ok i ↔
      ∃ op imm rest, ArithOp.ofCode (midField b0) = some op ∧ takeImm (bitAt b0 0) bs = some (imm, rest) ∧
        op.instrIA (bitAt b0 0) imm = i := by
  cases h : ArithOp.ofCode (midField b0) <;> simp [decodeAccArith, h]

theorem decodeRegImm_eq_ok_iff {b0 : Byte} {bs : List Byte} {i : Instr} :
    decodeRegImm b0 bs = .ok i ↔
      ∃ imm rest, takeImm (bitAt b0 3) bs = some (imm, rest) ∧ .movIR (bitAt b0 3) (lowField b0) imm = i := by
  simp [decodeRegImm]

theorem decodeAccMem_eq_ok_iff {b0 : Byte} {bs : List Byte} {i : Instr} :
    decodeAccMem b0 bs = .ok i ↔
      ∃ addr rest, takeWord bs = some (addr, rest) ∧
        (if bitAt b0 1 then .movStore (bitAt b0 0) addr else .movLoad (bitAt b0 0) addr) = i := by
  simp [decodeAccMem]

theorem decodeRmMov_eq_ok_iff {b0 b1 : Byte} {bs : List Byte} {i : Instr} :
    decodeRmMov b0 b1 bs = .ok i ↔
      ∃ rm rest, takeRm (modField b1) (lowField b1) bs = some (rm, rest) ∧
        .movRM (bitAt b0 1) (bitAt b0 0) (midField b1) rm = i := by
  simp [decodeRmMov]

theorem decodeRmArith_eq_ok_iff {b0 b1 : Byte} {bs : List Byte} {i : Instr} :
    decodeRmArith b0 b1 bs = .ok i ↔
      ∃ op rm rest, ArithOp.ofCode (midField b0) = some op ∧
        takeRm (modField b1) (lowField b1) bs = some (rm, rest) ∧
        op.instrRM (bitAt b0 1) (bitAt b0 0) (midField b1) rm = i := by
  cases h : ArithOp.ofCode (midField b0) <;> simp [decodeRmArith, h]

theorem decodeImmRmArith_eq_ok_iff {b0 b1 : Byte} {bs : List Byte} {i : Instr} :
    decodeImmRmArith b0 b1 bs = .ok i ↔
      ∃ op rm rest imm rest', ArithOp.ofCode (midField b1) = some op ∧
        takeRm (modField b1) (lowField b1) bs = some (rm, rest) ∧
        takeImm (irmWordImm (bitAt b0 1) (bitAt b0 0)) rest = some (imm, rest') ∧
        op.instrIRM (bitAt b0 1) (bitAt b0 0) rm imm = i := by
  cases h : ArithOp.ofCode (midField b1) <;> simp [decodeImmRmArith, h, Option.bind_eq_some_iff]

theorem decodeImmRmMov_eq_ok_iff {b0 b1 : Byte} {bs : List Byte} {i : Instr} :
    decodeImmRmMov b0 b1 bs = .ok i ↔
      midField b1 = 0b000#3 ∧
        ∃ rm rest imm rest', takeRm (modField b1) (lowField b1) bs = some (rm, rest) ∧
          takeImm (bitAt b0 0) rest = some (imm, rest') ∧ .movIMV (bitAt b0 0) rm imm = i := by
  by_cases h : midField b1 = 0b000#3 <;> simp [decodeImmRmMov, h, Option.bind_eq_some_iff]

/-! ### The displacement length of a mode byte -/

/-- `dispLen` from `mod` and the `rm` code, as the table of R113 gives it. -/
def dispLenOf (mod : BitVec 2) (c : BitVec 3) : Nat :=
  if mod = 0b11#2 then 0
  else if mod = 0b01#2 then 1
  else if mod = 0b10#2 then 2
  else if c = 0b110#3 then 2 else 0

theorem mod_cases (mod : BitVec 2) : mod = 0b00#2 ∨ mod = 0b01#2 ∨ mod = 0b10#2 ∨ mod = 0b11#2 := by
  decide +revert

/-- The r/m operand that is taken has the displacement that `mod` and `rm` announce. -/
theorem dispLen_of_takeRm {mod : BitVec 2} {c : BitVec 3} {bs rest : List Byte} {rm : RmOperand}
    (h : takeRm mod c bs = some (rm, rest)) : rm.dispLen = dispLenOf mod c := by
  obtain rfl | rfl | rfl | rfl := mod_cases mod
  case inl =>
    by_cases hc : c = 0b110#3
    · subst hc
      obtain ⟨_, -, ⟨⟩⟩ := Option.map_eq_some_iff.mp h
      rfl
    · obtain ⟨rfl, -⟩ : RmOperand.mem (BasePair.ofCode c) = rm ∧ bs = rest := by simpa [takeRm, hc] using h
      simp [dispLenOf, hc, RmOperand.dispLen]
  case inr.inl =>
    cases bs <;> cases h
    rfl
  case inr.inr.inl =>
    obtain ⟨_, -, ⟨⟩⟩ := Option.map_eq_some_iff.mp h
    rfl
  case inr.inr.inr =>
    cases h
    rfl

/-! ### The size of what each path answers (R113) -/

theorem size_of_decodeJump {b0 : Byte} {bs : List Byte} {i : Instr} (h : decodeJump b0 bs = .ok i) : i.size = 2 := by
  obtain ⟨op, rel, _, -, -, rfl⟩ := decodeJump_eq_ok_iff.mp h
  simp [Instr.size]

theorem size_of_decodeAccArith {b0 : Byte} {bs : List Byte} {i : Instr} (h : decodeAccArith b0 bs = .ok i) :
    i.size = 1 + immLen (bitAt b0 0) := by
  obtain ⟨op, imm, _, -, -, rfl⟩ := decodeAccArith_eq_ok_iff.mp h
  simp [Instr.size]

theorem size_of_decodeRegImm {b0 : Byte} {bs : List Byte} {i : Instr} (h : decodeRegImm b0 bs = .ok i) :
    i.size = 1 + immLen (bitAt b0 3) := by
  obtain ⟨imm, _, -, rfl⟩ := decodeRegImm_eq_ok_iff.mp h
  rfl

theorem size_of_decodeAccMem {b0 : Byte} {bs : List Byte} {i : Instr} (h : decodeAccMem b0 bs = .ok i) :
    i.size = 3 := by
  obtain ⟨addr, _, -, rfl⟩ := decodeAccMem_eq_ok_iff.mp h
  split <;> rfl

theorem size_of_decodeRmMov {b0 b1 : Byte} {bs : List Byte} {i : Instr} (h : decodeRmMov b0 b1 bs = .ok i) :
    i.size = 2 + dispLenOf (modField b1) (lowField b1) := by
  obtain ⟨rm, _, hrm, rfl⟩ := decodeRmMov_eq_ok_iff.mp h
  rw [← dispLen_of_takeRm hrm]
  rfl

theorem size_of_decodeRmArith {b0 b1 : Byte} {bs : List Byte} {i : Instr} (h : decodeRmArith b0 b1 bs = .ok i) :
    i.size = 2 + dispLenOf (modField b1) (lowField b1) := by
  obtain ⟨op, rm, _, -, hrm, rfl⟩ := decodeRmArith_eq_ok_iff.mp h
  simp [Instr.size, dispLen_of_takeRm hrm]

theorem size_of_decodeImmRmArith {b0 b1 : Byte} {bs : List Byte} {i : Instr}
    (h : decodeImmRmArith b0 b1 bs = .ok i) :
    i.size = 2 + dispLenOf (modField b1) (lowField b1) + immLen (irmWordImm (bitAt b0 1) (bitAt b0 0)) := by
  obtain ⟨op, rm, _, imm, _, -, hrm, -, rfl⟩ := decodeImmRmArith_eq_ok_iff.mp h
  simp [Instr.size, dispLen_of_takeRm hrm]

theorem size_of_decodeImmRmMov {b0 b1 : Byte} {bs : List Byte} {i : Instr} (h : decodeImmRmMov b0 b1 bs = .ok i) :
    i.size = 2 + dispLenOf (modField b1) (lowField b1) + immLen (bitAt b0 0) := by
  obtain ⟨-, rm, _, imm, _, hrm, -, rfl⟩ := decodeImmRmMov_eq_ok_iff.mp h
  rw [← dispLen_of_takeRm hrm]
  rfl

theorem one_add_immLen (two : Bool) : 1 + immLen two = if two then 3 else 2 := by cases two <;> rfl

theorem immLen_irmWordImm (s w : Bool) : immLen (irmWordImm s w) = if s = false ∧ w = true then 2 else 1 := by
  cases s <;> cases w <;> rfl

end Sys2Proof
end

section
/-! PROOFS. The statement of spec/30_encoding.md on the size of an instruction (R113). -/

open Sys2Proof Sys2Proof.Machine

namespace Sys2Proof.Proofs

/-- Settles O30: the first byte's family picks the decoding path, whose size lemma gives the table's entry. -/
theorem sizeIsAFunctionOfTheFirstTwoBytes : Obligations.SizeIsAFunctionOfTheFirstTwoBytes := by
  intro b0 b1 rest i hdec
  refine ⟨fun hf => ?jcc, fun hf => ?immAccArith, fun hf => ?immRegMov, fun hf => ?accMemMov, ?rm,
    fun hf => ?immRmArith, fun hf => ?immRmMov, size_range i⟩
  case rm =>
    rintro (hf | hf) <;> simp only [decode, hf, withModeByte] at hdec
    · exact size_of_decodeRmMov hdec
    · exact size_of_decodeRmArith hdec
  all_goals simp only [decode, hf, withModeByte] at hdec
  case jcc => exact size_of_decodeJump hdec
  case immAccArith => exact (size_of_decodeAccArith hdec).trans (one_add_immLen _)
  case immRegMov => exact (size_of_decodeRegImm hdec).trans (one_add_immLen _)
  case accMemMov => exact size_of_decodeAccMem hdec
  case immRmArith => exact (size_of_decodeImmRmArith hdec).trans (congrArg _ (immLen_irmWordImm _ _))
  case immRmMov => exact size_of_decodeImmRmMov hdec

end Sys2Proof.Proofs
end

section
/-! SUPPORT. The state a decode failure leaves, field by field, and the step that takes the failure in Trace mode
(spec/60_exceptions.md R308). Its twin in Execute mode is `step_fetching_error`. -/

namespace Sys2Proof.Machine

theorem takeFailure_eq (k : DecodeFailure) (p : Nat) (e : EngineState) (s : State) :
    takeFailure k p e s =
      { s with
        err := some ⟨failureKind k, p, none⟩
        es := e
        out := s.out ++ [.diagnostic ⟨failureKind k, p, none⟩] } := rfl

/-- Away from the end of the program, the Trace loop takes the failure of its decode. -/
theorem traceFetch_error {s : State} {k : DecodeFailure} (hcur : s.cur ≠ s.loadedLen)
    (hdec : decodeAt s s.cur = .error k) : traceFetch s = takeFailure k s.cur .traceError s := by
  simp [traceFetch, hcur, hdec]

theorem step_traceFetching_error {s : State} {k : DecodeFailure} (hes : s.es = .traceFetching)
    (hcur : s.cur ≠ s.loadedLen) (hdec : decodeAt s s.cur = .error k) :
    step s = .next (takeFailure k s.cur .traceError s) := by
  rw [step_traceFetching hes, traceFetch_error hcur hdec]

end Sys2Proof.Machine
end

section
/-! PROOFS. The statement of spec/60_exceptions.md on a decode failure (R308). -/

open Sys2Proof Sys2Proof.Machine

namespace Sys2Proof.Proofs

/-- Settles O40: the step of either mode is `takeFailure` at its own position, whose state `takeFailure_eq` gives; the
kinds agree for each of the two failures. -/
theorem decodeFailureHaltsPrecisely : Obligations.DecodeFailureHaltsPrecisely := by
  intro s k
  refine ⟨fun hes hdec => ?execute, fun hes hlt hdec => ?trace⟩
  case execute =>
    rw [step_fetching_error hes hdec, takeFailure_eq]
    cases k <;> rfl
  case trace =>
    rw [step_traceFetching_error hes (Nat.ne_of_lt hlt) hdec, takeFailure_eq]
    cases k <;> rfl

end Sys2Proof.Proofs
end

section
/-! SUPPORT. The decoder and the encoder family by family (spec/30_encoding.md R92 to R112, spec/40_decoder.md R143):
the instructions as the families see them, what each encodes to, which first byte a family has, and that the bytes a
field is taken from are the bytes it encodes to. Together: a list decodes to `i` exactly when the encoding of a
well-formed `i` stands at its front. -/

namespace Sys2Proof

/-! ### The instructions, by family -/

/-- An instruction as its family builds it: the seven sub-opcodes and the twenty jumps are one case each. -/
inductive FamilyView : Instr → Prop where
  | movRM (d w : Bool) (reg : BitVec 3) (rm : RmOperand) : FamilyView (.movRM d w reg rm)
  | movIMV (w : Bool) (rm : RmOperand) (imm : Imm) : FamilyView (.movIMV w rm imm)
  | movIR (w : Bool) (reg : BitVec 3) (imm : Imm) : FamilyView (.movIR w reg imm)
  | movLoad (w : Bool) (addr : Word) : FamilyView (.movLoad w addr)
  | movStore (w : Bool) (addr : Word) : FamilyView (.movStore w addr)
  | arithRM (op : ArithOp) (d w : Bool) (reg : BitVec 3) (rm : RmOperand) : FamilyView (op.instrRM d w reg rm)
  | arithIRM (op : ArithOp) (s w : Bool) (rm : RmOperand) (imm : Imm) : FamilyView (op.instrIRM s w rm imm)
  | arithIA (op : ArithOp) (w : Bool) (imm : Imm) : FamilyView (op.instrIA w imm)
  | jump (op : JumpOp) (rel : Byte) : FamilyView (op.instr rel)

theorem familyView (i : Instr) : FamilyView i := by
  cases i with
  | movRM => exact .movRM ..
  | movIMV => exact .movIMV ..
  | movIR => exact .movIR ..
  | movLoad => exact .movLoad ..
  | movStore => exact .movStore ..
  | addRM d w reg rm => exact .arithRM .add d w reg rm
  | addIRM s w rm imm => exact .arithIRM .add s w rm imm
  | addIA w imm => exact .arithIA .add w imm
  | orRM d w reg rm => exact .arithRM .or d w reg rm
  | orIRM s w rm imm => exact .arithIRM .or s w rm imm
  | orIA w imm => exact .arithIA .or w imm
  | adcRM d w reg rm => exact .arithRM .adc d w reg rm
  | adcIRM s w rm imm => exact .arithIRM .adc s w rm imm
  | adcIA w imm => exact .arithIA .adc w imm
  | sbbRM d w reg rm => exact .arithRM .sbb d w reg rm
  | sbbIRM s w rm imm => exact .arithIRM .sbb s w rm imm
  | sbbIA w imm => exact .arithIA .sbb w imm
  | andRM d w reg rm => exact .arithRM .and d w reg rm
  | andIRM s w rm imm => exact .arithIRM .and s w rm imm
  | andIA w imm => exact .arithIA .and w imm
  | subRM d w reg rm => exact .arithRM .sub d w reg rm
  | subIRM s w rm imm => exact .arithIRM .sub s w rm imm
  | subIA w imm => exact .arithIA .sub w imm
  | cmpRM d w reg rm => exact .arithRM .cmp d w reg rm
  | cmpIRM s w rm imm => exact .arithIRM .cmp s w rm imm
  | cmpIA w imm => exact .arithIA .cmp w imm
  | jo rel => exact .jump .jo rel
  | jno rel => exact .jump .jno rel
  | jb rel => exact .jump .jb rel
  | jnb rel => exact .jump .jnb rel
  | je rel => exact .jump .je rel
  | jnz rel => exact .jump .jnz rel
  | jbe rel => exact .jump .jbe rel
  | ja rel => exact .jump .ja rel
  | js rel => exact .jump .js rel
  | jns rel => exact .jump .jns rel
  | jp rel => exact .jump .jp rel
  | jnp rel => exact .jump .jnp rel
  | jl rel => exact .jump .jl rel
  | jnl rel => exact .jump .jnl rel
  | jle rel => exact .jump .jle rel
  | jg rel => exact .jump .jg rel
  | loopnz rel => exact .jump .loopnz rel
  | loopz rel => exact .jump .loopz rel
  | loop rel => exact .jump .loop rel
  | jcxz rel => exact .jump .jcxz rel

/-! ### What each family encodes to -/

theorem encode_instrRM (op : ArithOp) (d w : Bool) (reg : BitVec 3) (rm : RmOperand) :
    encode (op.instrRM d w reg rm) = encodeRM (0b00#2 ++ op.code ++ 0#1) d w reg rm := by cases op <;> rfl

theorem encode_instrIRM (op : ArithOp) (s w : Bool) (rm : RmOperand) (imm : Imm) :
    encode (op.instrIRM s w rm imm) = encodeIRM op.code s w rm imm := by cases op <;> rfl

theorem encode_instrIA (op : ArithOp) (w : Bool) (imm : Imm) :
    encode (op.instrIA w imm) = encodeIA op.code w imm := by cases op <;> rfl

theorem encode_jump (op : JumpOp) (rel : Byte) : encode (op.instr rel) = [op.opcode, rel] := by cases op <;> rfl

/-- The encoding of a well-formed instruction has the size of R113. -/
theorem encode_length {i : Instr} (h : i.wf = true) : (encode i).length = i.size := by
  cases familyView i with
  | movRM => exact Laws.EncodedLength.movRM _ _ _ _ h
  | movIMV => exact Laws.EncodedLength.movIMV _ _ _ h
  | movIR => exact Laws.EncodedLength.movIR _ _ _ h
  | movLoad => exact Laws.EncodedLength.movLoad _ _ h
  | movStore => exact Laws.EncodedLength.movStore _ _ h
  | arithRM op => exact Laws.EncodedLength.of_rm (op.form_instrRM ..) (encode_instrRM op ..) h
  | arithIRM op => exact Laws.EncodedLength.of_irm (op.form_instrIRM ..) (encode_instrIRM op ..) h
  | arithIA op => exact Laws.EncodedLength.of_ia (op.form_instrIA ..) (encode_instrIA op ..) h
  | jump op => rw [encode_jump, Instr.size, op.form_instr]; rfl

/-! ### From the encoding to the instruction -/

/-- Decoding the encoding of a well-formed instruction gives it back, whatever bytes follow. -/
theorem decode_encode_append {i : Instr} (h : i.wf = true) (rest : List Byte) :
    decode (encode i ++ rest) = .ok i := by
  cases familyView i with
  | movRM d w reg rm =>
    obtain ⟨hclass, hd, hw⟩ := classify_rmRegMov d w
    obtain ⟨b1, ds, hmode, hreg, htake⟩ := takeRm_encodeModeByte (rm := rm) h reg rest
    simp only [encode, encodeRM, hmode, List.cons_append, decode, hclass, withModeByte]
    exact decodeRmMov_eq_ok_iff.mpr ⟨rm, rest, htake, by rw [hd, hw, hreg]⟩
  | movIMV w rm imm =>
    obtain ⟨hrm, himm⟩ := Bool.and_eq_true_iff.mp h
    obtain ⟨hclass, hw⟩ := classify_immRmMov w
    obtain ⟨b1, ds, hmode, hreg, htake⟩ := takeRm_encodeModeByte hrm 0b000#3 (encodeImm imm ++ rest)
    simp only [encode, hmode, List.cons_append, List.append_assoc, decode, hclass, withModeByte]
    exact decodeImmRmMov_eq_ok_iff.mpr
      ⟨hreg, rm, _, imm, rest, htake, by rw [hw, takeImm_encodeImm himm], by rw [hw]⟩
  | movIR w reg imm =>
    obtain ⟨hclass, hw, hreg⟩ := classify_immRegMov w reg
    simp only [encode, List.cons_append, decode, hclass]
    exact decodeRegImm_eq_ok_iff.mpr ⟨imm, rest, by rw [hw, takeImm_encodeImm h], by rw [hw, hreg]⟩
  | movLoad w addr =>
    obtain ⟨hclass, hw, ht⟩ := classify_accMemMov false w
    simp only [encode, List.cons_append, decode, hclass]
    exact decodeAccMem_eq_ok_iff.mpr ⟨addr, rest, takeWord_encodeWord addr rest, by rw [ht, hw]; rfl⟩
  | movStore w addr =>
    obtain ⟨hclass, hw, ht⟩ := classify_accMemMov true w
    simp only [encode, List.cons_append, decode, hclass]
    exact decodeAccMem_eq_ok_iff.mpr ⟨addr, rest, takeWord_encodeWord addr rest, by rw [ht, hw]; rfl⟩
  | arithRM op d w reg rm =>
    rw [Instr.wf, op.form_instrRM] at h
    obtain ⟨hclass, hd, hw, hop⟩ := classify_rmRegArith op d w
    obtain ⟨b1, ds, hmode, hreg, htake⟩ := takeRm_encodeModeByte (rm := rm) h reg rest
    simp only [encode_instrRM, encodeRM, hmode, List.cons_append, decode, hclass, withModeByte]
    exact decodeRmArith_eq_ok_iff.mpr ⟨op, rm, rest, by rw [hop, op.ofCode_code], htake, by rw [hd, hw, hreg]⟩
  | arithIRM op s w rm imm =>
    rw [Instr.wf, op.form_instrIRM] at h
    obtain ⟨hrm, himm⟩ := Bool.and_eq_true_iff.mp h
    obtain ⟨hclass, hs, hw⟩ := classify_immRmArith s w
    obtain ⟨b1, ds, hmode, hop, htake⟩ := takeRm_encodeModeByte hrm op.code (encodeImm imm ++ rest)
    simp only [encode_instrIRM, encodeIRM, hmode, List.cons_append, List.append_assoc, decode, hclass, withModeByte]
    exact decodeImmRmArith_eq_ok_iff.mpr
      ⟨op, rm, _, imm, rest, by rw [hop, op.ofCode_code], htake,
        by rw [hs, hw]; exact takeImm_encodeImm himm rest, by rw [hs, hw]⟩
  | arithIA op w imm =>
    rw [Instr.wf, op.form_instrIA] at h
    obtain ⟨hclass, hw, hop⟩ := classify_immAccArith op w
    simp only [encode_instrIA, encodeIA, List.cons_append, decode, hclass]
    exact decodeAccArith_eq_ok_iff.mpr
      ⟨op, imm, rest, by rw [hop, op.ofCode_code], by rw [hw, takeImm_encodeImm h], by rw [hw]⟩
  | jump op rel =>
    simp only [encode_jump, List.cons_append, List.nil_append, decode, classify_opcode]
    exact decodeJump_eq_ok_iff.mpr ⟨op, rel, rest, op.ofByte_opcode, rfl, rfl⟩

/-! ### From the bytes to the instruction: each field encodes to the bytes it was taken from -/

theorem eq_encodeWord_of_takeWord {bs rest : List Byte} {v : Word} (h : takeWord bs = some (v, rest)) :
    encodeWord v ++ rest = bs := by
  match bs, h with
  | _ :: _ :: _, rfl => simp [encodeWord]

theorem eq_encodeImm_of_takeImm {two : Bool} {bs rest : List Byte} {imm : Imm}
    (h : takeImm two bs = some (imm, rest)) : imm.fits two = true ∧ encodeImm imm ++ rest = bs := by
  match two, bs, h with
  | true, _, h =>
    obtain ⟨⟨v, _⟩, hword, ⟨⟩⟩ := Option.map_eq_some_iff.mp h
    exact ⟨rfl, eq_encodeWord_of_takeWord hword⟩
  | false, _ :: _, rfl => exact ⟨rfl, rfl⟩

/-- The only `rm` code without a `mod = 00` base pair is the one of `bp` (R104). -/
theorem BasePair.ofCode_ne_bp {c : BitVec 3} (h : c ≠ 0b110#3) : (BasePair.ofCode c != .bp) = true := by
  decide +revert

theorem eq_encodeModeByte_of_takeRm {mod : BitVec 2} {c : BitVec 3} {bs rest : List Byte} {rm : RmOperand}
    (h : takeRm mod c bs = some (rm, rest)) (reg : BitVec 3) :
    rm.wf = true ∧ encodeModeByte reg rm ++ rest = (mod ++ reg ++ c) :: bs := by
  obtain rfl | rfl | rfl | rfl := mod_cases mod
  case inl =>
    by_cases hc : c = 0b110#3
    · subst hc
      obtain ⟨⟨v, _⟩, hword, ⟨⟩⟩ := Option.map_eq_some_iff.mp h
      exact ⟨rfl, congrArg _ (eq_encodeWord_of_takeWord hword)⟩
    · obtain ⟨rfl, rfl⟩ : RmOperand.mem (BasePair.ofCode c) = rm ∧ bs = rest := by simpa [takeRm, hc] using h
      exact ⟨BasePair.ofCode_ne_bp hc, by simp [encodeModeByte]⟩
  case inr.inl =>
    match bs, h with
    | _ :: _, rfl => exact ⟨rfl, by simp [encodeModeByte]⟩
  case inr.inr.inl =>
    obtain ⟨⟨v, _⟩, hword, ⟨⟩⟩ := Option.map_eq_some_iff.mp h
    exact ⟨rfl, by simp [encodeModeByte, eq_encodeWord_of_takeWord hword]⟩
  case inr.inr.inr =>
    cases h
    exact ⟨rfl, rfl⟩

/-! ### From the first byte to its fields: a family's bytes are its opcode bits and the fields taken from them -/

theorem modeByte_fields (b : Byte) : modField b ++ midField b ++ lowField b = b := by decide +revert

theorem firstByte_of_rmRegMov {b : Byte} (h : classify b = some .rmRegMov) :
    0b100010#6 ++ bit (bitAt b 1) ++ bit (bitAt b 0) = b := by decide +revert

theorem firstByte_of_rmRegArith {b : Byte} (h : classify b = some .rmRegArith) :
    0b00#2 ++ midField b ++ 0#1 ++ bit (bitAt b 1) ++ bit (bitAt b 0) = b := by decide +revert

theorem firstByte_of_immRmArith {b : Byte} (h : classify b = some .immRmArith) :
    0b100000#6 ++ bit (bitAt b 1) ++ bit (bitAt b 0) = b := by decide +revert

theorem firstByte_of_immAccArith {b : Byte} (h : classify b = some .immAccArith) :
    0b00#2 ++ midField b ++ 0b10#2 ++ bit (bitAt b 0) = b := by decide +revert

theorem firstByte_of_immRmMov {b : Byte} (h : classify b = some .immRmMov) :
    0b1100011#7 ++ bit (bitAt b 0) = b := by decide +revert

theorem firstByte_of_immRegMov {b : Byte} (h : classify b = some .immRegMov) :
    0b1011#4 ++ bit (bitAt b 3) ++ lowField b = b := by decide +revert

theorem firstByte_of_accMemMov {b : Byte} (h : classify b = some .accMemMov) :
    0b101000#6 ++ bit (bitAt b 1) ++ bit (bitAt b 0) = b := by decide +revert

/-! ### What a successful path has read -/

/-- The r/m operand taken after a mode byte is well-formed, and encodes to that byte and the displacement. -/
theorem modeByte_of_takeRm {b1 : Byte} {bs rest : List Byte} {rm : RmOperand}
    (h : takeRm (modField b1) (lowField b1) bs = some (rm, rest)) :
    rm.wf = true ∧ encodeModeByte (midField b1) rm ++ rest = b1 :: bs := by
  obtain ⟨hwf, hbytes⟩ := eq_encodeModeByte_of_takeRm h (midField b1)
  exact ⟨hwf, by rw [hbytes, modeByte_fields]⟩

/-- `bs` begins with the encoding of the well-formed `i`. -/
def BeginsWith (bs : List Byte) (i : Instr) : Prop := i.wf = true ∧ encode i <+: bs

theorem beginsWith_of_decodeJump {b0 : Byte} {bs : List Byte} {i : Instr} (h : decodeJump b0 bs = .ok i) :
    BeginsWith (b0 :: bs) i := by
  obtain ⟨op, rel, rest, hop, rfl, rfl⟩ := decodeJump_eq_ok_iff.mp h
  exact ⟨by rw [Instr.wf, op.form_instr]; rfl, rest, by rw [encode_jump, JumpOp.opcode_of_ofByte hop]; rfl⟩

theorem beginsWith_of_decodeAccArith {b0 : Byte} {bs : List Byte} {i : Instr} (hf : classify b0 = some .immAccArith)
    (h : decodeAccArith b0 bs = .ok i) : BeginsWith (b0 :: bs) i := by
  obtain ⟨op, imm, rest, hop, himm, rfl⟩ := decodeAccArith_eq_ok_iff.mp h
  obtain ⟨hfits, rfl⟩ := eq_encodeImm_of_takeImm himm
  refine ⟨by rw [Instr.wf, op.form_instrIA]; exact hfits, rest, ?_⟩
  rw [encode_instrIA, encodeIA, ArithOp.code_of_ofCode hop, firstByte_of_immAccArith hf]
  rfl

theorem beginsWith_of_decodeRegImm {b0 : Byte} {bs : List Byte} {i : Instr} (hf : classify b0 = some .immRegMov)
    (h : decodeRegImm b0 bs = .ok i) : BeginsWith (b0 :: bs) i := by
  obtain ⟨imm, rest, himm, rfl⟩ := decodeRegImm_eq_ok_iff.mp h
  obtain ⟨hfits, rfl⟩ := eq_encodeImm_of_takeImm himm
  exact ⟨hfits, rest, by rw [encode, firstByte_of_immRegMov hf]; rfl⟩

theorem beginsWith_of_decodeAccMem {b0 : Byte} {bs : List Byte} {i : Instr} (hf : classify b0 = some .accMemMov)
    (h : decodeAccMem b0 bs = .ok i) : BeginsWith (b0 :: bs) i := by
  obtain ⟨addr, rest, haddr, rfl⟩ := decodeAccMem_eq_ok_iff.mp h
  have hbytes := eq_encodeWord_of_takeWord haddr
  have hfirst := firstByte_of_accMemMov hf
  cases ht : bitAt b0 1 <;> rw [ht] at hfirst <;>
    exact ⟨rfl, rest, congrArg₂ List.cons hfirst hbytes⟩

theorem beginsWith_of_decodeRmMov {b0 b1 : Byte} {bs : List Byte} {i : Instr} (hf : classify b0 = some .rmRegMov)
    (h : decodeRmMov b0 b1 bs = .ok i) : BeginsWith (b0 :: b1 :: bs) i := by
  obtain ⟨rm, rest, hrm, rfl⟩ := decodeRmMov_eq_ok_iff.mp h
  obtain ⟨hwf, hbytes⟩ := modeByte_of_takeRm hrm
  exact ⟨hwf, rest, congrArg₂ List.cons (firstByte_of_rmRegMov hf) hbytes⟩

theorem beginsWith_of_decodeRmArith {b0 b1 : Byte} {bs : List Byte} {i : Instr}
    (hf : classify b0 = some .rmRegArith) (h : decodeRmArith b0 b1 bs = .ok i) : BeginsWith (b0 :: b1 :: bs) i := by
  obtain ⟨op, rm, rest, hop, hrm, rfl⟩ := decodeRmArith_eq_ok_iff.mp h
  obtain ⟨hwf, hbytes⟩ := modeByte_of_takeRm hrm
  refine ⟨by rw [Instr.wf, op.form_instrRM]; exact hwf, rest, ?_⟩
  rw [encode_instrRM, encodeRM, ArithOp.code_of_ofCode hop, firstByte_of_rmRegArith hf, List.cons_append, hbytes]

theorem beginsWith_of_decodeImmRmArith {b0 b1 : Byte} {bs : List Byte} {i : Instr}
    (hf : classify b0 = some .immRmArith) (h : decodeImmRmArith b0 b1 bs = .ok i) :
    BeginsWith (b0 :: b1 :: bs) i := by
  obtain ⟨op, rm, bs', imm, rest, hop, hrm, himm, rfl⟩ := decodeImmRmArith_eq_ok_iff.mp h
  obtain ⟨hwf, hbytes⟩ := modeByte_of_takeRm hrm
  obtain ⟨hfits, rfl⟩ := eq_encodeImm_of_takeImm himm
  refine ⟨by rw [Instr.wf, op.form_instrIRM]; exact Bool.and_eq_true_iff.mpr ⟨hwf, hfits⟩, rest, ?_⟩
  rw [encode_instrIRM, encodeIRM, ArithOp.code_of_ofCode hop, firstByte_of_immRmArith hf, List.cons_append,
    List.cons_append, List.append_assoc, hbytes]

theorem beginsWith_of_decodeImmRmMov {b0 b1 : Byte} {bs : List Byte} {i : Instr}
    (hf : classify b0 = some .immRmMov) (h : decodeImmRmMov b0 b1 bs = .ok i) : BeginsWith (b0 :: b1 :: bs) i := by
  obtain ⟨hreg, rm, bs', imm, rest, hrm, himm, rfl⟩ := decodeImmRmMov_eq_ok_iff.mp h
  obtain ⟨hwf, hbytes⟩ := modeByte_of_takeRm hrm
  obtain ⟨hfits, rfl⟩ := eq_encodeImm_of_takeImm himm
  rw [hreg] at hbytes
  refine ⟨Bool.and_eq_true_iff.mpr ⟨hwf, hfits⟩, rest, ?_⟩
  rw [encode, firstByte_of_immRmMov hf, List.cons_append, List.cons_append, List.append_assoc, hbytes]

theorem withModeByte_eq_ok_iff {k : Byte → List Byte → Except DecodeFailure Instr} {bs : List Byte} {i : Instr} :
    withModeByte k bs = .ok i ↔ ∃ b1 rest, bs = b1 :: rest ∧ k b1 rest = .ok i := by
  cases bs <;> simp [withModeByte]

theorem beginsWith_of_decode {bs : List Byte} {i : Instr} (h : decode bs = .ok i) : BeginsWith bs i := by
  obtain _ | ⟨b0, bs⟩ := bs
  · cases h
  cases hf : classify b0 with
  | none => simp [decode, hf] at h
  | some f =>
    cases f <;> simp only [decode, hf] at h
    case jcc => exact beginsWith_of_decodeJump h
    case immAccArith => exact beginsWith_of_decodeAccArith hf h
    case immRegMov => exact beginsWith_of_decodeRegImm hf h
    case accMemMov => exact beginsWith_of_decodeAccMem hf h
    all_goals obtain ⟨b1, rest, rfl, h⟩ := withModeByte_eq_ok_iff.mp h
    case immRmArith => exact beginsWith_of_decodeImmRmArith hf h
    case immRmMov => exact beginsWith_of_decodeImmRmMov hf h
    case rmRegMov => exact beginsWith_of_decodeRmMov hf h
    case rmRegArith => exact beginsWith_of_decodeRmArith hf h

/-- Exactly when a list of bytes decodes to `i`. -/
theorem decode_eq_ok_iff {bs : List Byte} {i : Instr} : decode bs = .ok i ↔ BeginsWith bs i := by
  refine ⟨beginsWith_of_decode, ?_⟩
  rintro ⟨hwf, rest, rfl⟩
  exact decode_encode_append hwf rest

end Sys2Proof
end

section
/-! SUPPORT. When each decoding path fails with `UnrecognizedOpcode` (spec/30_encoding.md R120, R121,
spec/40_decoder.md R143, R161): only on a rejected sub-opcode or `reg` field of a mode byte that is there. So the
failure is settled by the first two bytes, and no later byte takes it back. -/

namespace Sys2Proof

@[simp] theorem orTruncated_ne_unrecognized (o : Option Instr) : orTruncated o ≠ .error .unrecognizedOpcode := by
  cases o <;> simp [orTruncated]

theorem ArithOp.ofCode_eq_none_iff {c : BitVec 3} : ArithOp.ofCode c = none ↔ c = 0b110#3 := by decide +revert

theorem JumpOp.ofByte_of_classify {b : Byte} (h : classify b = some .jcc) : ∃ op, JumpOp.ofByte b = some op := by
  have hsome : (JumpOp.ofByte b).isSome = true := by decide +revert
  exact Option.isSome_iff_exists.mp hsome

theorem midField_of_immAccArith {b : Byte} (h : classify b = some .immAccArith) : midField b ≠ 0b110#3 := by
  decide +revert

theorem midField_of_rmRegArith {b : Byte} (h : classify b = some .rmRegArith) : midField b ≠ 0b110#3 := by
  decide +revert

theorem decodeJump_recognized {b0 : Byte} (hf : classify b0 = some .jcc) (bs : List Byte) :
    decodeJump b0 bs ≠ .error .unrecognizedOpcode := by
  obtain ⟨op, hop⟩ := JumpOp.ofByte_of_classify hf
  cases bs <;> simp [decodeJump, hop]

theorem decodeAccArith_recognized {b0 : Byte} (hf : classify b0 = some .immAccArith) (bs : List Byte) :
    decodeAccArith b0 bs ≠ .error .unrecognizedOpcode := by
  obtain ⟨op, hop⟩ := Option.ne_none_iff_exists'.mp (mt ArithOp.ofCode_eq_none_iff.mp (midField_of_immAccArith hf))
  simp [decodeAccArith, hop]

theorem decodeRmArith_recognized {b0 : Byte} (hf : classify b0 = some .rmRegArith) (b1 : Byte) (bs : List Byte) :
    decodeRmArith b0 b1 bs ≠ .error .unrecognizedOpcode := by
  obtain ⟨op, hop⟩ := Option.ne_none_iff_exists'.mp (mt ArithOp.ofCode_eq_none_iff.mp (midField_of_rmRegArith hf))
  simp [decodeRmArith, hop]

theorem decodeImmRmArith_unrecognized_iff {b0 b1 : Byte} {bs : List Byte} :
    decodeImmRmArith b0 b1 bs = .error .unrecognizedOpcode ↔ midField b1 = 0b110#3 := by
  rw [← ArithOp.ofCode_eq_none_iff]
  cases h : ArithOp.ofCode (midField b1) <;> simp [decodeImmRmArith, h]

theorem decodeImmRmMov_unrecognized_iff {b0 b1 : Byte} {bs : List Byte} :
    decodeImmRmMov b0 b1 bs = .error .unrecognizedOpcode ↔ midField b1 ≠ 0b000#3 := by
  by_cases h : midField b1 = 0b000#3 <;> simp [decodeImmRmMov, h]

theorem withModeByte_unrecognized_iff {k : Byte → List Byte → Except DecodeFailure Instr} {bs : List Byte} :
    withModeByte k bs = .error .unrecognizedOpcode ↔
      ∃ b1 rest, bs = b1 :: rest ∧ k b1 rest = .error .unrecognizedOpcode := by
  cases bs <;> simp [withModeByte]

/-- The first two bytes are rejected: a first byte in no family, or a mode byte that is there and selects nothing. -/
def Rejected (b0 : Byte) (bs : List Byte) : Prop :=
  classify b0 = none ∨
    ∃ b1 rest, bs = b1 :: rest ∧
      ((classify b0 = some .immRmArith ∧ midField b1 = 0b110#3) ∨
        (classify b0 = some .immRmMov ∧ midField b1 ≠ 0b000#3))

theorem decode_cons_unrecognized_iff {b0 : Byte} {bs : List Byte} :
    decode (b0 :: bs) = .error .unrecognizedOpcode ↔ Rejected b0 bs := by
  cases hf : classify b0 with
  | none => simp [decode, Rejected, hf]
  | some f =>
    cases f with
    | jcc => simp [decode, Rejected, hf, decodeJump_recognized hf]
    | immAccArith => simp [decode, Rejected, hf, decodeAccArith_recognized hf]
    | immRegMov => simp [decode, Rejected, hf, decodeRegImm]
    | accMemMov => simp [decode, Rejected, hf, decodeAccMem]
    | rmRegMov => simp [decode, Rejected, hf, withModeByte_unrecognized_iff, decodeRmMov]
    | rmRegArith => simp [decode, Rejected, hf, withModeByte_unrecognized_iff, decodeRmArith_recognized hf]
    | immRmArith => simp [decode, Rejected, hf, withModeByte_unrecognized_iff, decodeImmRmArith_unrecognized_iff]
    | immRmMov => simp [decode, Rejected, hf, withModeByte_unrecognized_iff, decodeImmRmMov_unrecognized_iff]

/-- What is rejected stays rejected, whatever bytes follow. -/
theorem decode_append_unrecognized {bs : List Byte} (h : decode bs = .error .unrecognizedOpcode) (more : List Byte) :
    decode (bs ++ more) = .error .unrecognizedOpcode := by
  obtain _ | ⟨b0, bs⟩ := bs
  · cases h
  refine decode_cons_unrecognized_iff.mpr ?_
  obtain hnone | ⟨b1, rest, rfl, hmode⟩ := decode_cons_unrecognized_iff.mp h
  · exact .inl hnone
  · exact .inr ⟨b1, rest ++ more, rfl, hmode⟩

/-- An instruction is read to its last byte: no encoding cut short decodes. -/
theorem take_encode_ne_ok {i : Instr} (hwf : i.wf = true) {k : Nat} (hk : k < i.size) (j : Instr) :
    decode ((encode i).take k) ≠ .ok j := by
  intro h
  obtain ⟨hj, rest, hbytes⟩ := beginsWith_of_decode h
  have hi : encode i = encode j ++ (rest ++ (encode i).drop k) := by
    rw [← List.append_assoc, hbytes, List.take_append_drop]
  have hji : i = j := by
    have hdec := decode_encode_append hwf []
    rw [List.append_nil, hi, decode_encode_append hj] at hdec
    exact (Except.ok.inj hdec).symm
  subst hji
  have hlen := congrArg List.length hbytes
  rw [List.length_append, List.length_take, encode_length hwf] at hlen
  omega

/-! ### The cascade of the families (R92, R93, R144) -/

theorem classify_eq_some_iff (b0 : Byte) (f : Family) : classify b0 = some f ↔ f.test b0 = true := by
  cases f <;> decide +revert

end Sys2Proof
end

section
/-! PROOFS. The statements of spec/30_encoding.md and spec/40_decoder.md on the decoder of a list of bytes. -/

open Sys2Proof Sys2Proof.Machine

namespace Sys2Proof.Proofs

/-- Settles O28: family by family the encoder's fields are taken back (`decode_encode_append`). -/
theorem decodeOfEncodeIsTheInstruction : Obligations.DecodeOfEncodeIsTheInstruction :=
  fun _ hwf rest => decode_encode_append hwf rest

/-- Settles O29: the list begins with the encoding, whose length is the size. -/
theorem encodeOfDecodeIsTheBytes : Obligations.EncodeOfDecodeIsTheBytes := by
  intro bs i hdec
  obtain ⟨hwf, rest, rfl⟩ := beginsWith_of_decode hdec
  have hlen := encode_length hwf
  refine ⟨hwf, ?_, ?_⟩
  · rw [← hlen, List.take_left]
  · rw [List.length_append]
    omega

/-- Settles O31: an encoding cut short decodes to nothing, and it cannot be rejected either, since then the whole
encoding would be. -/
theorem truncatedEncodingIsTruncatedInstruction : Obligations.TruncatedEncodingIsTruncatedInstruction := by
  intro i hwf k hk
  cases hdec : decode ((encode i).take k) with
  | ok j => exact absurd hdec (take_encode_ne_ok hwf hk j)
  | error e =>
    cases e with
    | truncatedInstruction => rfl
    | unrecognizedOpcode =>
      have hwhole := decode_append_unrecognized hdec ((encode i).drop k)
      rw [List.take_append_drop, ← List.append_nil (encode i), decode_encode_append hwf] at hwhole
      cases hwhole

/-- Settles O32: the empty list is truncated; after a first byte it is the path lemmas, family by family. -/
theorem unrecognizedOpcodeExactlyWhen : Obligations.UnrecognizedOpcodeExactlyWhen := by
  intro bs
  cases bs with
  | nil => simp [decode]
  | cons b0 rest =>
    rw [decode_cons_unrecognized_iff]
    exact ⟨fun h => ⟨b0, rest, rfl, h⟩, fun ⟨_, _, hcons, h⟩ => by cases hcons; exact h⟩

/-- Settles O33: the cascade answers exactly the family whose test holds, so two families that hold are one. -/
theorem familiesAreDisjoint : Obligations.FamiliesAreDisjoint := by
  refine ⟨fun b0 f g hf hg => ?_, classify_eq_some_iff, by decide +kernel⟩
  rw [← classify_eq_some_iff] at hf hg
  exact Option.some.inj (hf.symm.trans hg)

/-- Settles O35: the worked examples, by running the decoder. -/
theorem workedExamplesDecode : Obligations.WorkedExamplesDecode := by
  refine ⟨?_, ?_, ?_, ?_, ?_, ?_, ?_, ?_, ?_, ?_, ?_, ?_, ?_, ?_, ?_⟩ <;> decide

end Sys2Proof.Proofs
end

section
/-! SUPPORT. The accessors at their width: what a register or a memory operand reads after its own write
(spec/10_state.md R24, R25, spec/20_memory.md R63, R64), that an operand's value is already at its width (R263), and
the two flags in numbers (R191). -/

namespace Sys2Proof.Machine

/-- The bits an access of this width has. -/
def widthMask (wide : Bool) : Word := if wide then 0xFFFF#16 else 0x00FF#16

@[simp] theorem and_widthMask_word (v : Word) : v &&& widthMask true = v := BitVec.and_allOnes

@[simp] theorem and_widthMask_byte (v : Word) : v &&& widthMask false = zextByte (loByte v) := (zextByte_loByte v).symm

theorem Regs.read_write_self (r : Regs) (wide : Bool) (c : BitVec 3) (v : Word) :
    (r.write wide c v).read wide c = v &&& widthMask wide := by
  cases wide with
  | true => rw [Regs.write_wide, Regs.read_wide, Regs.get_set_self, and_widthMask_word]
  | false =>
    rw [and_widthMask_byte]
    obtain hc | hc := Nat.lt_or_ge c.toNat 4
    · rw [Regs.write_low r v hc, Regs.read_low _ hc, Regs.get_set_self, loByte_mkWord]
    · rw [Regs.write_high r v hc, Regs.read_high _ hc, Regs.get_set_self, hiByte_mkWord]

theorem memRead_memWrite_self {m : Memory} {a : Nat} {wide : Bool} (v : Word) (h : m.wf = true)
    (ha : a + accessLen wide ≤ Config.memSize) : memRead (memWrite m a wide v) a wide = v &&& widthMask wide := by
  cases wide with
  | true => simp [memRead, read_memWrite v h ha]
  | false => simp [memRead, read_memWrite v h ha]

/-- An access at an effective address stays in the store (R66, R67). -/
theorem ea_access_le (a : Word) (wide : Bool) : a.toNat + accessLen wide ≤ Config.memSize := by
  have := ea_in_store a
  cases wide <;> simp only [accessLen, if_true, Bool.false_eq_true, if_false] <;> omega

/-- A byte operand is zero-extended (R193, R263). -/
theorem opRead_byte_lt (s : State) (o : Operand) : (opRead s false o).toNat < 256 := by
  cases o with
  | register c => exact Regs.read_byte_lt s.regs c
  | memory m =>
    rw [opRead, memRead_byte_toNat]
    exact (Memory.read _ _).isLt
  | immediate v isRelative =>
    rw [opRead, if_neg Bool.false_ne_true, zextByte_toNat]
    exact (BitVec.ofInt 8 v).isLt

theorem opRead_and_widthMask (s : State) (wide : Bool) (o : Operand) :
    opRead s wide o &&& widthMask wide = opRead s wide o := by
  cases wide with
  | true => rw [and_widthMask_word]
  | false =>
    rw [and_widthMask_byte]
    have := opRead_byte_lt s o
    exact BitVec.eq_of_toNat_eq (by rw [zextByte_toNat, loByte_toNat]; omega)

theorem zeroOf_eq_decide (r : Word) : zeroOf r = decide (r.toNat = 0) := by
  rw [zeroOf, beq_eq_decide, decide_eq_decide, ← BitVec.toNat_inj]
  rfl

theorem signOf_eq_decide (r : Word) : signOf r = decide (32768 ≤ r.toNat) := BitVec.msb_eq_decide r

theorem flagsFrom_eq (s : State) (r : Word) :
    s.flagsFrom r = { s with zf := decide (r.toNat = 0), sf := decide (32768 ≤ r.toNat) } := by
  rw [State.flagsFrom, zeroOf_eq_decide, signOf_eq_decide]
  rfl

theorem zeroOf_eq_true_iff (r : Word) : zeroOf r = true ↔ r = 0#16 := beq_iff_eq

end Sys2Proof.Machine
end

section
/-! SUPPORT. What `exec` can do (spec/45_sequencer.md R267, R268): it always answers a next state, by one of seven
effects, each with its condition. The frames and the invariants are read off these. -/

namespace Sys2Proof.Machine

/-- The 16-bit result of `add`, and of `sub` and `cmp` (R191). -/
def arithResult (i : Instr) (s : State) (dst src : Operand) : Word :=
  if i.mnemonic = .add then opRead s i.wide dst + opRead s i.wide src
  else opRead s i.wide dst - opRead s i.wide src

theorem arithResult_add {i : Instr} (hm : i.mnemonic = .add) (s : State) (dst src : Operand) :
    arithResult i s dst src = opRead s i.wide dst + opRead s i.wide src := if_pos hm

theorem arithResult_sub {i : Instr} (hm : i.mnemonic = .sub ∨ i.mnemonic = .cmp) (s : State) (dst src : Operand) :
    arithResult i s dst src = opRead s i.wide dst - opRead s i.wide src := by
  obtain hm | hm := hm <;> simp [arithResult, hm]

theorem exec_addSub {i : Instr} (h : i.mnemonic = .add ∨ i.mnemonic = .sub) (s : State) :
    ∃ dst src, i.operands = [dst, src] ∧ writableOperand dst = true ∧
      exec i s = .next ((written s i.wide dst (arithResult i s dst src)).flagsFrom (arithResult i s dst src)) := by
  obtain h | h := h
  · simpa [arithResult, h] using exec_add h s
  · simpa [arithResult, h] using exec_sub h s

theorem exec_cmp_arithResult {i : Instr} (h : i.mnemonic = .cmp) (s : State) :
    ∃ dst src, i.operands = [dst, src] ∧ exec i s = .next (s.flagsFrom (arithResult i s dst src)) := by
  simpa [arithResult, h] using exec_cmp h s

/-- `Effect i s t`: the effect of `i` takes `s` to `t`. -/
inductive Effect (i : Instr) (s : State) : State → Prop where
  | mov {dst src : Operand} (hm : i.mnemonic = .mov) (ho : i.operands = [dst, src])
      (hd : writableOperand dst = true) : Effect i s (written s i.wide dst (opRead s i.wide src))
  | addSub {dst src : Operand} (hm : i.mnemonic = .add ∨ i.mnemonic = .sub) (ho : i.operands = [dst, src])
      (hd : writableOperand dst = true) :
      Effect i s ((written s i.wide dst (arithResult i s dst src)).flagsFrom (arithResult i s dst src))
  | cmp {dst src : Operand} (hm : i.mnemonic = .cmp) (ho : i.operands = [dst, src]) :
      Effect i s (s.flagsFrom (arithResult i s dst src))
  | jnzTaken {rel : Byte} (hi : i = .jnz rel) (hz : s.zf = false) :
      Effect i s (s.setIp (s.ip + rel.signExtend 16))
  | jnzNotTaken {rel : Byte} (hi : i = .jnz rel) (hz : s.zf = true) : Effect i s s
  | refused (hx : i.mnemonic.executable = false) (hp : s.unimplPolicy = .refuse) :
      Effect i s (refuseUnimplemented i.mnemonic i.size s)
  | skipped (hx : i.mnemonic.executable = false) (hp : s.unimplPolicy = .skip) : Effect i s s

/-- Every instruction completes, by one of the effects. -/
theorem exec_effect (i : Instr) (s : State) : ∃ t, exec i s = .next t ∧ Effect i s t := by
  cases hx : i.mnemonic.executable with
  | false =>
    rw [exec_unimplemented hx, unimplemented]
    cases hp : s.unimplPolicy with
    | refuse => exact ⟨_, rfl, .refused hx hp⟩
    | skip => exact ⟨_, rfl, .skipped hx hp⟩
  | true =>
    obtain hm | hm | hm | hm | hm := executable_cases hx
    · obtain ⟨dst, src, ho, hd, hexec⟩ := exec_mov hm s
      exact ⟨_, hexec, .mov hm ho hd⟩
    · obtain ⟨dst, src, ho, hd, hexec⟩ := exec_addSub (.inl hm) s
      exact ⟨_, hexec, .addSub (.inl hm) ho hd⟩
    · obtain ⟨dst, src, ho, hd, hexec⟩ := exec_addSub (.inr hm) s
      exact ⟨_, hexec, .addSub (.inr hm) ho hd⟩
    · obtain ⟨dst, src, ho, hexec⟩ := exec_cmp_arithResult hm s
      exact ⟨_, hexec, .cmp hm ho⟩
    · obtain ⟨rel, hi, hexec⟩ := exec_jnz hm s
      cases hz : s.zf with
      | false => exact ⟨_, by rw [hexec, hz]; rfl, .jnzTaken hi hz⟩
      | true => exact ⟨_, by rw [hexec, hz]; rfl, .jnzNotTaken hi hz⟩

theorem effect_of_exec {i : Instr} {s t : State} (h : exec i s = .next t) : Effect i s t := by
  obtain ⟨u, hexec, heffect⟩ := exec_effect i s
  rw [h] at hexec
  cases hexec
  exact heffect

/-! ### The effect of an instruction whose operands are known -/

section
variable {i : Instr} {s : State} {dst src : Operand} (ho : i.operands = [dst, src])
include ho

theorem exec_mov_of_operands (hm : i.mnemonic = .mov) :
    exec i s = .next (written s i.wide dst (opRead s i.wide src)) := by
  obtain ⟨dst', src', ho', -, hexec⟩ := exec_mov hm s
  cases ho.symm.trans ho'
  exact hexec

theorem exec_addSub_of_operands (hm : i.mnemonic = .add ∨ i.mnemonic = .sub) :
    writableOperand dst = true ∧
      exec i s = .next ((written s i.wide dst (arithResult i s dst src)).flagsFrom (arithResult i s dst src)) := by
  obtain ⟨dst', src', ho', hd, hexec⟩ := exec_addSub hm s
  cases ho.symm.trans ho'
  exact ⟨hd, hexec⟩

theorem exec_cmp_of_operands (hm : i.mnemonic = .cmp) : exec i s = .next (s.flagsFrom (arithResult i s dst src)) := by
  obtain ⟨dst', src', ho', hexec⟩ := exec_cmp_arithResult hm s
  cases ho.symm.trans ho'
  exact hexec

end

theorem exec_of_effect {i : Instr} {s t : State} (h : Effect i s t) : exec i s = .next t := by
  cases h with
  | mov hm ho hd => exact exec_mov_of_operands ho hm
  | addSub hm ho hd => exact (exec_addSub_of_operands ho hm).2
  | cmp hm ho => exact exec_cmp_of_operands ho hm
  | jnzTaken hi hz => rw [hi, exec, execJnz, hz]; rfl
  | jnzNotTaken hi hz => rw [hi, exec, execJnz, hz]; rfl
  | refused hx hp => rw [exec_unimplemented hx, unimplemented, hp]
  | skipped hx hp => rw [exec_unimplemented hx, unimplemented, hp]

/-! ### The sign flag is read by nothing (R31) -/

theorem opRead_withSf (s : State) (b wide : Bool) (o : Operand) :
    opRead { s with sf := b } wide o = opRead s wide o := by cases o <;> rfl

theorem written_withSf (s : State) (b wide : Bool) (o : Operand) (v : Word) :
    written { s with sf := b } wide o v = { written s wide o v with sf := b } := by cases o <;> rfl

theorem arithResult_withSf (i : Instr) (s : State) (b : Bool) (dst src : Operand) :
    arithResult i { s with sf := b } dst src = arithResult i s dst src := by
  simp only [arithResult, opRead_withSf]

/-- With another sign flag the effect is the same, up to the sign flag. -/
theorem Effect.withSf {i : Instr} {s t : State} (b : Bool) (h : Effect i s t) :
    Effect i { s with sf := b } t ∨ Effect i { s with sf := b } { t with sf := b } := by
  cases h with
  | mov hm ho hd =>
    refine .inr ?_
    rw [← written_withSf, ← opRead_withSf s b]
    exact .mov hm ho hd
  | @addSub dst src hm ho hd =>
    refine .inl ?_
    have heff := Effect.addSub (s := { s with sf := b }) hm ho hd
    rwa [arithResult_withSf, written_withSf] at heff
  | cmp hm ho =>
    refine .inl ?_
    have heff := Effect.cmp (s := { s with sf := b }) hm ho
    rwa [arithResult_withSf] at heff
  | jnzTaken hi hz => exact .inr (.jnzTaken (s := { s with sf := b }) hi hz)
  | jnzNotTaken hi hz => exact .inr (.jnzNotTaken (s := { s with sf := b }) hi hz)
  | refused hx hp => exact .inr (.refused (s := { s with sf := b }) hx hp)
  | skipped hx hp => exact .inr (.skipped (s := { s with sf := b }) hx hp)

end Sys2Proof.Machine
end

section
/-! SUPPORT. What each effect may change, element by element (spec/10_state.md R26, R29, R31), and its results in
numbers (spec/42_arith.md R191, R193, spec/43_branch.md R231). -/

namespace Sys2Proof.Machine

/-! ### Frames of the effects -/

theorem Effect.regs {i : Instr} {s t : State} (h : Effect i s t) :
    t.regs = s.regs ∨ ((i.mnemonic = .mov ∨ i.mnemonic = .add ∨ i.mnemonic = .sub) ∧
      ∃ c src, i.operands = [.register c, src] ∧ t.mem = s.mem ∧ regsSameExcept s.regs t.regs i.wide c) := by
  cases h with
  | @mov dst src hm ho hd =>
    cases dst with
    | register c => exact .inr ⟨.inl hm, c, src, ho, rfl, regsSameExcept_write _ _ _ _⟩
    | memory => exact .inl rfl
    | immediate => cases hd
  | @addSub dst src hm ho hd =>
    cases dst with
    | register c => exact .inr ⟨.inr hm, c, src, ho, rfl, regsSameExcept_write _ _ _ _⟩
    | memory => exact .inl rfl
    | immediate => cases hd
  | cmp | jnzTaken | jnzNotTaken | refused | skipped => exact .inl rfl

theorem Effect.mem {i : Instr} {s t : State} (h : Effect i s t) :
    t.mem = s.mem ∨ ((i.mnemonic = .mov ∨ i.mnemonic = .add ∨ i.mnemonic = .sub) ∧
      ∃ m src, i.operands = [.memory m, src] ∧ t.regs = s.regs ∧
        memSameOutside s.mem t.mem (ea s.regs m) i.wide) := by
  cases h with
  | @mov dst src hm ho hd =>
    cases dst with
    | register => exact .inl rfl
    | memory m => exact .inr ⟨.inl hm, m, src, ho, rfl, memSameOutside_memWrite _ _ _ _⟩
    | immediate => cases hd
  | @addSub dst src hm ho hd =>
    cases dst with
    | register => exact .inl rfl
    | memory m => exact .inr ⟨.inr hm, m, src, ho, rfl, memSameOutside_memWrite _ _ _ _⟩
    | immediate => cases hd
  | cmp | jnzTaken | jnzNotTaken | refused | skipped => exact .inl rfl

theorem Effect.ip {i : Instr} {s t : State} (h : Effect i s t) :
    t.ip = s.ip ∨ (i.mnemonic = .jnz ∧ s.zf = false) := by
  cases h with
  | mov => exact .inl (written_ip ..)
  | addSub => exact .inl (written_ip ..)
  | jnzTaken hi hz => exact .inr ⟨by rw [hi]; rfl, hz⟩
  | cmp | jnzNotTaken | refused | skipped => exact .inl rfl

theorem Effect.flags {i : Instr} {s t : State} (h : Effect i s t) :
    (t.zf = s.zf ∧ t.sf = s.sf) ∨ i.mnemonic = .add ∨ i.mnemonic = .sub ∨ i.mnemonic = .cmp := by
  cases h with
  | mov => exact .inl ⟨written_zf .., written_sf ..⟩
  | addSub hm => exact .inr (hm.imp_right .inl)
  | cmp hm => exact .inr (.inr (.inr hm))
  | jnzTaken | jnzNotTaken | refused | skipped => exact .inl ⟨rfl, rfl⟩

/-- After `add`, `sub` and `cmp` the flags are those of the result. -/
theorem exec_arith_flags {i : Instr} {s t : State} (hm : i.mnemonic = .add ∨ i.mnemonic = .sub ∨ i.mnemonic = .cmp)
    (h : exec i s = .next t) :
    ∃ dst src u, i.operands = [dst, src] ∧ t = State.flagsFrom u (arithResult i s dst src) := by
  rw [← or_assoc] at hm
  obtain hm | hm := hm
  · obtain ⟨dst, src, ho, -, hexec⟩ := exec_addSub hm s
    rw [h] at hexec
    exact ⟨dst, src, _, ho, Host.Outcome.next.inj hexec⟩
  · obtain ⟨dst, src, ho, hexec⟩ := exec_cmp_arithResult hm s
    rw [h] at hexec
    exact ⟨dst, src, _, ho, Host.Outcome.next.inj hexec⟩

theorem fetchDecode_flags (s : State) : (fetchDecode s).zf = s.zf ∧ (fetchDecode s).sf = s.sf := by
  obtain ⟨i, -, h⟩ | ⟨k, -, h⟩ := fetchDecode_cases s <;> rw [h] <;> exact ⟨rfl, rfl⟩

/-! ### Results in numbers -/

theorem toNat_sub_eq_emod (a b : Word) : ((a - b).toNat : Int) = ((a.toNat : Int) - b.toNat) % 65536 := by
  have := a.isLt
  have := b.isLt
  rw [BitVec.toNat_sub]
  omega

theorem toNat_add_ofInt (a : Word) (x : Int) : ((a + BitVec.ofInt 16 x).toNat : Int) = (a.toNat + x) % 65536 := by
  rw [BitVec.toNat_add, BitVec.toNat_ofInt]
  omega

theorem flags_of_byte_sum {a b : Word} (ha : a.toNat < 256) (hb : b.toNat < 256) :
    decide (32768 ≤ (a + b).toNat) = false ∧ (decide ((a + b).toNat = 0) = true ↔ a = 0#16 ∧ b = 0#16) := by
  rw [decide_eq_false_iff_not, decide_eq_true_iff, ← BitVec.toNat_inj, ← BitVec.toNat_inj, BitVec.toNat_add]
  simp only [BitVec.toNat_ofNat]
  omega

theorem flags_of_byte_difference {a b : Word} (ha : a.toNat < 256) (hb : b.toNat < 256) :
    (decide ((a - b).toNat = 0) = true ↔ a = b) ∧ (decide (32768 ≤ (a - b).toNat) = true ↔ a.toNat < b.toNat) := by
  rw [decide_eq_true_iff, decide_eq_true_iff, ← BitVec.toNat_inj, BitVec.toNat_sub]
  omega

end Sys2Proof.Machine
end

section
/-! PROOFS. The statements of spec/41_mov.md, spec/42_arith.md, spec/43_branch.md and spec/45_sequencer.md on the
effects: results, completion and frames. -/

open Sys2Proof Sys2Proof.Machine

namespace Sys2Proof.Proofs

/-- Settles O13: the effect is a register write of the source's value, which is already at its width. -/
theorem movIntoRegisterCopiesAndFrames : Obligations.MovIntoRegisterCopiesAndFrames := by
  intro i s c src hm ho
  refine ⟨_, exec_mov_of_operands ho hm, rfl, ?_, regsSameExcept_write _ _ _ _⟩
  exact (Regs.read_write_self ..).trans (opRead_and_widthMask ..)

/-- Settles O14: the effect is a store write at the effective address of the source's value, already at its width. -/
theorem movIntoMemoryCopiesAndFrames : Obligations.MovIntoMemoryCopiesAndFrames := by
  intro i s m src hm ho hwf
  refine ⟨_, exec_mov_of_operands ho hm, rfl, ?_, memSameOutside_memWrite _ _ _ _⟩
  exact (memRead_memWrite_self _ hwf (ea_access_le ..)).trans (opRead_and_widthMask ..)

/-- Settles O15: the sum or difference, reduced once, is written and gives both flags. -/
theorem arithmeticWritesResultThenFlags : Obligations.ArithmeticWritesResultThenFlags := by
  intro i s dst src ho
  refine ⟨fun _ => ⟨opRead_byte_lt s dst, opRead_byte_lt s src⟩, fun hm => ?add, fun hm => ?sub, fun hm => ?cmp⟩
  case add =>
    obtain ⟨hd, hexec⟩ := exec_addSub_of_operands ho (.inl hm) (s := s)
    refine ⟨_, arithResult i s dst src, ?_, opWrite_writable hd, by rw [hexec, flagsFrom_eq]⟩
    rw [arithResult_add hm, BitVec.toNat_add]
  case sub =>
    obtain ⟨hd, hexec⟩ := exec_addSub_of_operands ho (.inr hm) (s := s)
    refine ⟨_, arithResult i s dst src, ?_, opWrite_writable hd, by rw [hexec, flagsFrom_eq]⟩
    rw [arithResult_sub (.inl hm), toNat_sub_eq_emod]
  case cmp =>
    refine ⟨arithResult i s dst src, ?_, by rw [exec_cmp_of_operands ho hm, flagsFrom_eq]⟩
    rw [arithResult_sub (.inr hm), toNat_sub_eq_emod]

/-- Settles O16: the register write of the result, read back at its width. -/
theorem addSubIntoRegisterFrames : Obligations.AddSubIntoRegisterFrames := by
  intro i s c src hm ho
  exact ⟨_, (exec_addSub_of_operands ho hm).2, rfl, Regs.read_write_self .., regsSameExcept_write _ _ _ _⟩

/-- Settles O17: the store write of the result at the effective address, read back at its width. -/
theorem addSubIntoMemoryFrames : Obligations.AddSubIntoMemoryFrames := by
  intro i s m src hm ho hwf
  exact ⟨_, (exec_addSub_of_operands ho hm).2, rfl, memRead_memWrite_self _ hwf (ea_access_le ..),
    memSameOutside_memWrite _ _ _ _⟩

/-- Settles O18: the difference is 0 exactly when the operands are equal. -/
theorem cmpZeroFlagMeansEqual : Obligations.CmpZeroFlagMeansEqual := by
  intro i s dst src hm ho
  refine ⟨_, exec_cmp_of_operands ho hm, rfl, (zeroOf_eq_true_iff _).trans ?_⟩
  rw [arithResult_sub (.inr hm)]
  exact sub_eq_zero

/-- Settles O19: both operands are below 256, so a sum does not reach 2^15 and a difference does exactly when it
borrows. -/
theorem byteArithmeticFlags : Obligations.ByteArithmeticFlags := by
  intro i s dst src ho hw
  have hdst := opRead_byte_lt s dst
  have hsrc := opRead_byte_lt s src
  obtain ⟨t, hexec, -⟩ := exec_effect i s
  have flags (hm : i.mnemonic = .add ∨ i.mnemonic = .sub ∨ i.mnemonic = .cmp) :
      ∃ u, t = State.flagsFrom u (arithResult i s dst src) := by
    obtain ⟨dst', src', u, ho', ht⟩ := exec_arith_flags hm hexec
    cases ho.symm.trans ho'
    exact ⟨u, ht⟩
  refine ⟨fun hm => ⟨t, hexec, ?sum⟩, fun hm => ⟨t, hexec, ?difference⟩⟩
  case sum =>
    obtain ⟨u, rfl⟩ := flags (.inl hm)
    rw [flagsFrom_eq, arithResult_add hm, hw]
    exact flags_of_byte_sum hdst hsrc
  case difference =>
    obtain ⟨u, rfl⟩ := flags (.inr hm)
    rw [flagsFrom_eq, arithResult_sub hm, hw]
    exact flags_of_byte_difference hdst hsrc

/-- Settles O20: each effect in turn. -/
theorem onlyArithmeticWritesFlags : Obligations.OnlyArithmeticWritesFlags := by
  intro i s t hexec
  obtain ⟨hzf, hsf⟩ := fetchDecode_flags s
  refine ⟨?arithmetic, ?others, hzf, hsf⟩
  case arithmetic =>
    intro hm
    obtain ⟨dst, src, u, ho, ht⟩ := exec_arith_flags hm hexec
    exact ⟨dst, src, arithResult i s dst src, ho, rfl, by rw [ht]; exact zeroOf_eq_true_iff _, by rw [ht]; rfl⟩
  case others =>
    rintro ⟨hadd, hsub, hcmp⟩
    obtain hflags | hm | hm | hm := (effect_of_exec hexec).flags
    · exact hflags
    · exact absurd hm hadd
    · exact absurd hm hsub
    · exact absurd hm hcmp

/-- Settles O21: with another sign flag the same effect applies. -/
theorem signFlagInfluencesNothing : Obligations.SignFlagInfluencesNothing := by
  intro i s b
  obtain ⟨t, hexec, heffect⟩ := exec_effect i s
  obtain h | h := heffect.withSf b
  · exact ⟨t, _, hexec, exec_of_effect h, rfl⟩
  · exact ⟨t, _, hexec, exec_of_effect h, rfl⟩

/-- Settles O22: the sign-extended offset is added to `IP` as an integer, reduced once. -/
theorem jnzAddsItsOffsetWhenZeroFlagClear : Obligations.JnzAddsItsOffsetWhenZeroFlagClear := by
  intro rel s
  refine ⟨fun hz => exec_of_effect (.jnzNotTaken rfl hz), fun hz => ⟨_, exec_of_effect (.jnzTaken rfl hz), rfl, ?_⟩⟩
  rw [State.setIp_ip, BitVec.signExtend, toNat_add_ofInt]

/-- Settles O23: no other effect writes `IP`. -/
theorem onlyJnzWritesIp : Obligations.OnlyJnzWritesIp := by
  intro i s t hexec hm
  obtain hip | ⟨hjnz, -⟩ := (effect_of_exec hexec).ip
  · exact hip
  · exact absurd hjnz hm

/-- Settles O24: the frame of each element, over the seven effects. -/
theorem onlyTheDestinationIsWritten : Obligations.OnlyTheDestinationIsWritten := by
  intro i s t hexec
  have heffect := effect_of_exec hexec
  obtain ⟨hcur, hlen, hpolicy, hout, -, hcontrol⟩ := exec_control hexec
  refine ⟨heffect.regs, heffect.mem, heffect.ip, heffect.flags, ?_, hcur, hlen, hpolicy, hout⟩
  obtain hsame | ⟨hx, hp, -⟩ := hcontrol
  · exact .inl hsame
  · exact .inr ⟨hx, hp⟩

/-- Settles O25: the refusal, with its fields written out. -/
theorem instructionsWithoutSemanticsAreRefused : Obligations.InstructionsWithoutSemanticsAreRefused :=
  fun _ _ hx hp => exec_of_effect (.refused hx hp)

/-- Settles O26: under `skip` the effect is none. -/
theorem instructionsWithoutSemanticsAreSkippedUnderSkip :
    Obligations.InstructionsWithoutSemanticsAreSkippedUnderSkip :=
  fun _ _ hx hp => exec_of_effect (.skipped hx hp)

/-- Settles O27: one of the seven effects applies. -/
theorem everyInstructionCompletes : Obligations.EveryInstructionCompletes := by
  intro i s
  obtain ⟨t, hexec, -⟩ := exec_effect i s
  exact ⟨t, hexec⟩

end Sys2Proof.Proofs
end

section
/-! SUPPORT. The bytes the decoder is given at a position (spec/20_memory.md R68, R77), and exactly when a position
decodes to an instruction: its bytes stand there, below the loaded length (spec/40_decoder.md R141). -/

namespace Sys2Proof.Machine

theorem fetchWindow_length (m : Memory) (p L : Nat) : (fetchWindow m p L).length = min 6 (L - p) := by
  simp [fetchWindow, Config.maxInsn]

theorem fetchWindow_getElem? (m : Memory) {p L k : Nat} (hk : k < min 6 (L - p)) :
    (fetchWindow m p L)[k]? = some (m.read (p + k)) := by
  simp only [fetchWindow, Config.maxInsn, List.getElem?_map, List.getElem?_range hk, Option.map_some]

theorem decodeAt_eq_ok_iff {s : State} {p : Nat} {i : Instr} :
    decodeAt s p = .ok i ↔
      i.wf = true ∧ p + i.size ≤ s.loadedLen ∧ ∀ k, k < i.size → (encode i)[k]? = some (s.mem.read (p + k)) := by
  have hsize := size_range i
  rw [decodeAt, decode_eq_ok_iff, BeginsWith, and_congr_right_iff]
  intro hwf
  have hlen := encode_length hwf
  constructor
  · intro hprefix
    have hle := hprefix.length_le
    rw [hlen, fetchWindow_length] at hle
    refine ⟨by omega, fun k hk => ?_⟩
    have hk' : k < (encode i).length := by omega
    rw [List.getElem?_eq_getElem hk', ← List.prefix_iff_getElem?.mp hprefix k hk',
      fetchWindow_getElem? s.mem (by omega)]
  · rintro ⟨hfits, hbytes⟩
    refine List.prefix_iff_getElem?.mpr fun k hk => ?_
    rw [fetchWindow_getElem? s.mem (by omega), ← hbytes k (hlen ▸ hk), List.getElem?_eq_getElem hk]

theorem decodeAt_fits {s : State} {p : Nat} {i : Instr} (h : decodeAt s p = .ok i) : p + i.size ≤ s.loadedLen := by
  obtain ⟨-, hfits, -⟩ := decodeAt_eq_ok_iff.mp h
  exact hfits

end Sys2Proof.Machine
end

section
/-! SUPPORT. What one transition of the state machines can do (spec/45_sequencer.md R262, R272), said once: it always
answers a next state, by one of ten moves, each with its condition. The step of R270 is one to three transitions in
sequence (R270), so what every transition keeps, every step keeps. -/

namespace Sys2Proof.Machine

/-- The effect of an instruction that is not refused leaves the control state alone. -/
theorem Effect.keeps_control {i : Instr} {s u : State} (h : Effect i s u)
    (hrun : i.mnemonic.executable = true ∨ s.unimplPolicy = .skip) : u.es = s.es ∧ u.err = s.err := by
  obtain ⟨-, -, -, -, -, hsame | ⟨hx, hp, -⟩⟩ := exec_control (exec_of_effect h)
  · exact hsame
  · simp [hx, hp] at hrun

/-- An instruction that neither runs nor is skipped is refused. -/
theorem refuses_of_not_run {m : Mnemonic} {p : UnimplPolicy} (h : ¬(m.executable = true ∨ p = .skip)) :
    m.executable = false ∧ p = .refuse := by
  cases p <;> simp_all

/-- `Move s t`: a transition takes `s` to `t`. -/
inductive Move (s : State) : State → Prop where
  | decode {i : Instr} (hes : s.es = .fetching) (hdec : decodeAt s s.ip.toNat = .ok i) :
      Move s (s.setEs (.decoded ⟨s.ip.toNat, i⟩))
  | fail {k : DecodeFailure} (hes : s.es = .fetching) (hdec : decodeAt s s.ip.toNat = .error k) :
      Move s (takeFailure k s.ip.toNat .haltedError s)
  | enter {d : DecodedInstr} (hes : s.es = .decoded d) : Move s (enterApplying d s)
  | refuse {d : DecodedInstr} (hes : s.es = .applying d) (hx : d.instr.mnemonic.executable = false)
      (hp : s.unimplPolicy = .refuse) : Move s (refuseUnimplemented d.instr.mnemonic d.instr.size s)
  | halt {d : DecodedInstr} {u : State} (hes : s.es = .applying d) (heff : Effect d.instr s u)
      (hrun : d.instr.mnemonic.executable = true ∨ s.unimplPolicy = .skip) (hip : u.loadedLen ≤ u.ip.toNat) :
      Move s ((u.emit (finalReport u)).setEs .haltedNormal)
  | goOn {d : DecodedInstr} {u : State} (hes : s.es = .applying d) (heff : Effect d.instr s u)
      (hrun : d.instr.mnemonic.executable = true ∨ s.unimplPolicy = .skip) (hip : u.ip.toNat < u.loadedLen) :
      Move s (u.setEs .fetching)
  | traceEnd (hes : s.es = .traceFetching) (hcur : s.cur = s.loadedLen) : Move s (s.setEs .traceDone)
  | traceLine {i : Instr} (hes : s.es = .traceFetching) (hcur : s.cur ≠ s.loadedLen)
      (hdec : decodeAt s s.cur = .ok i) :
      Move s ((s.emit (.line (render (DecodedInstr.record ⟨s.cur, i⟩)))).setCur (s.cur + i.size))
  | traceFail {k : DecodeFailure} (hes : s.es = .traceFetching) (hcur : s.cur ≠ s.loadedLen)
      (hdec : decodeAt s s.cur = .error k) : Move s (takeFailure k s.cur .traceError s)
  | stay (hend : s.ended = true) : Move s s

theorem transition_ended {s : State} (h : s.ended = true) : transition s = .next s := by
  unfold transition
  cases hes : s.es <;> simp [State.ended, EngineState.terminal, hes] at h ⊢

theorem step_ended {s : State} (h : s.ended = true) : step s = .next s := by
  unfold step macroStep
  cases hes : s.es <;> simp [State.ended, EngineState.terminal, hes] at h ⊢

theorem transition_fetching {s : State} (h : s.es = .fetching) : transition s = .next (fetchDecode s) := by
  simp [transition, h]

theorem transition_decoded {s : State} {d : DecodedInstr} (h : s.es = .decoded d) :
    transition s = .next (enterApplying d s) := by
  simp [transition, h]

theorem transition_applying {s : State} {d : DecodedInstr} (h : s.es = .applying d) :
    transition s = applyInstr d s := by
  simp [transition, h]

theorem transition_traceFetching {s : State} (h : s.es = .traceFetching) : transition s = .next (traceFetch s) := by
  simp [transition, h]

/-- `Applying`: the effect, and where it leads. -/
theorem applyInstr_move {s : State} {d : DecodedInstr} (hes : s.es = .applying d) :
    ∃ t, applyInstr d s = .next t ∧ Move s t := by
  by_cases hrun : d.instr.mnemonic.executable = true ∨ s.unimplPolicy = .skip
  · obtain ⟨u, hexec, heff⟩ := exec_effect d.instr s
    obtain ⟨hues, -⟩ := heff.keeps_control hrun
    have hnot : u.es ≠ .refused := by simp [hues, hes]
    rw [applyInstr_of_exec hexec]
    obtain ⟨href, -⟩ | ⟨-, hip, hnext⟩ | ⟨-, hip, hnext⟩ := concludeApplying_cases u
    · exact absurd href hnot
    · exact ⟨_, rfl, hnext ▸ .halt hes heff hrun hip⟩
    · exact ⟨_, rfl, hnext ▸ .goOn hes heff hrun hip⟩
  · obtain ⟨hx, hp⟩ := refuses_of_not_run hrun
    exact ⟨_, applyInstr_of_exec (exec_of_effect (.refused hx hp)), .refuse hes hx hp⟩

theorem transition_move (s : State) : ∃ t, transition s = .next t ∧ Move s t := by
  cases hes : s.es with
  | fetching =>
    rw [transition_fetching hes]
    obtain ⟨i, hdec, hnext⟩ | ⟨k, hdec, hnext⟩ := fetchDecode_cases s
    · exact ⟨_, rfl, hnext ▸ .decode hes hdec⟩
    · exact ⟨_, rfl, hnext ▸ .fail hes hdec⟩
  | decoded d => exact ⟨_, transition_decoded hes, .enter hes⟩
  | applying d =>
    rw [transition_applying hes]
    exact applyInstr_move hes
  | traceFetching =>
    rw [transition_traceFetching hes]
    obtain ⟨hcur, hnext⟩ | ⟨hcur, i, hdec, hnext⟩ | ⟨hcur, k, hdec, hnext⟩ := traceFetch_cases s
    · exact ⟨_, rfl, hnext ▸ .traceEnd hes hcur⟩
    · exact ⟨_, rfl, hnext ▸ .traceLine hes hcur hdec⟩
    · exact ⟨_, rfl, hnext ▸ .traceFail hes hcur hdec⟩
  | haltedNormal | haltedError | refused | traceDone | traceError =>
    have hend : s.ended = true := by rw [State.ended, hes]; rfl
    exact ⟨s, transition_ended hend, .stay hend⟩

theorem move_of_transition {s t : State} (h : transition s = .next t) : Move s t := by
  obtain ⟨u, hnext, hmove⟩ := transition_move s
  rw [h] at hnext
  cases hnext
  exact hmove

/-! ### The step as transitions in sequence (R270) -/

theorem step_decoded_eq {s : State} {d : DecodedInstr} (h : s.es = .decoded d) :
    step s = andThen (transition s) transition := by
  rw [step_decoded h, transition_decoded h]
  exact (transition_applying rfl).symm

theorem step_fetching_ok_eq {s : State} {i : Instr} (h : s.es = .fetching) (hdec : decodeAt s s.ip.toNat = .ok i) :
    step s = andThen (andThen (transition s) transition) transition := by
  have hfetch : transition s = .next (s.setEs (.decoded ⟨s.ip.toNat, i⟩)) := by
    simp [transition_fetching h, fetchDecode, hdec]
  rw [step_fetching_ok h hdec, hfetch]
  exact (transition_applying rfl).symm

theorem step_fetching_error_eq {s : State} {k : DecodeFailure} (h : s.es = .fetching)
    (hdec : decodeAt s s.ip.toNat = .error k) : step s = transition s := by
  rw [step_fetching_error h hdec, transition_fetching h, fetchDecode, hdec]

/-- Every transition answers, so a step does: it is one, two or three of them. -/
theorem step_reaches (s : State) : ∃ t, step s = .next t ∧ Relation.ReflTransGen Move s t := by
  have single : step s = transition s → ∃ t, step s = .next t ∧ Relation.ReflTransGen Move s t := by
    intro hstep
    obtain ⟨t, hnext, hmove⟩ := transition_move s
    exact ⟨t, hstep.trans hnext, .single hmove⟩
  obtain ⟨t, ht, hst⟩ := transition_move s
  obtain ⟨u, hu, htu⟩ := transition_move t
  obtain ⟨v, hv, huv⟩ := transition_move u
  cases hes : s.es with
  | fetching =>
    cases hdec : decodeAt s s.ip.toNat with
    | ok i =>
      refine ⟨v, ?_, .head hst (.head htu (.single huv))⟩
      rw [step_fetching_ok_eq hes hdec, ht, andThen, hu, andThen, hv]
    | error k => exact single (step_fetching_error_eq hes hdec)
  | decoded d =>
    refine ⟨u, ?_, .head hst (.single htu)⟩
    rw [step_decoded_eq hes, ht, andThen, hu]
  | applying d => exact single ((step_applying hes).trans (transition_applying hes).symm)
  | traceFetching => exact single ((step_traceFetching hes).trans (transition_traceFetching hes).symm)
  | haltedNormal | haltedError | refused | traceDone | traceError =>
    have hend : s.ended = true := by rw [State.ended, hes]; rfl
    exact single ((step_ended hend).trans (transition_ended hend).symm)

theorem moves_of_step {s t : State} (h : step s = .next t) : Relation.ReflTransGen Move s t := by
  obtain ⟨u, hstep, hmoves⟩ := step_reaches s
  rw [h] at hstep
  cases hstep
  exact hmoves

end Sys2Proof.Machine
end

section
/-! SUPPORT. What every move keeps: the configuration, the outputs so far, the position of the other mode
(spec/10_state.md R34, R37, R274), and the machine invariant (spec/70_reset_and_hazards.md R351). -/

namespace Sys2Proof.Machine

/-- What a step may not change, and what it may only extend. -/
structure Keeps (s t : State) : Prop where
  loadedLen : t.loadedLen = s.loadedLen
  mode : t.mode = s.mode
  policy : t.unimplPolicy = s.unimplPolicy
  out : s.out <+: t.out
  wf : s.mem.wf = true → t.mem.wf = true
  cur : s.mode = .execute → t.cur = s.cur
  registers : s.mode = .trace → t.regs = s.regs ∧ t.ip = s.ip ∧ t.zf = s.zf ∧ t.sf = s.sf ∧ t.mem = s.mem

theorem Keeps.refl (s : State) : Keeps s s :=
  ⟨rfl, rfl, rfl, List.prefix_rfl, id, fun _ => rfl, fun _ => ⟨rfl, rfl, rfl, rfl, rfl⟩⟩

theorem Keeps.trans {s t u : State} (hst : Keeps s t) (htu : Keeps t u) : Keeps s u where
  loadedLen := htu.loadedLen.trans hst.loadedLen
  mode := htu.mode.trans hst.mode
  policy := htu.policy.trans hst.policy
  out := hst.out.trans htu.out
  wf := htu.wf ∘ hst.wf
  cur hm := (htu.cur (hst.mode.trans hm)).trans (hst.cur hm)
  registers hm := by
    obtain ⟨hregs, hip, hzf, hsf, hmem⟩ := hst.registers hm
    obtain ⟨hregs', hip', hzf', hsf', hmem'⟩ := htu.registers (hst.mode.trans hm)
    exact ⟨hregs'.trans hregs, hip'.trans hip, hzf'.trans hzf, hsf'.trans hsf, hmem'.trans hmem⟩

theorem State.mode_of_es {s : State} {e : EngineState} (h : s.es = e) : s.mode = e.mode := congrArg _ h

/-- A change of the engine state within Execute mode, after what keeps `CUR` and the configuration. -/
theorem Keeps.of_execute {s t : State} (hs : s.mode = .execute) (ht : t.mode = .execute)
    (hlen : t.loadedLen = s.loadedLen) (hp : t.unimplPolicy = s.unimplPolicy) (hout : s.out <+: t.out)
    (hwf : s.mem.wf = true → t.mem.wf = true) (hcur : t.cur = s.cur) : Keeps s t :=
  ⟨hlen, ht.trans hs.symm, hp, hout, hwf, fun _ => hcur, fun h => by simp [hs] at h⟩

/-- A move of the Trace loop. -/
theorem Keeps.of_trace {s t : State} (hs : s.mode = .trace) (ht : t.mode = .trace)
    (hlen : t.loadedLen = s.loadedLen) (hp : t.unimplPolicy = s.unimplPolicy) (hout : s.out <+: t.out)
    (hregs : t.regs = s.regs ∧ t.ip = s.ip ∧ t.zf = s.zf ∧ t.sf = s.sf ∧ t.mem = s.mem) : Keeps s t := by
  obtain ⟨-, -, -, -, hmem⟩ := id hregs
  exact ⟨hlen, ht.trans hs.symm, hp, hout, fun h => hmem ▸ h, fun h => by simp [hs] at h, fun _ => hregs⟩

theorem Move.keeps {s t : State} (h : Move s t) : Keeps s t := by
  cases h with
  | decode hes | refuse hes => exact .of_execute (State.mode_of_es hes) rfl rfl rfl List.prefix_rfl id rfl
  | fail hes | enter hes => exact .of_execute (State.mode_of_es hes) rfl rfl rfl (List.prefix_append _ _) id rfl
  | halt hes heff =>
    obtain ⟨hcur, hlen, hp, hout, hwf, -⟩ := exec_control (exec_of_effect heff)
    exact .of_execute (State.mode_of_es hes) rfl hlen hp (hout ▸ List.prefix_append _ _) hwf hcur
  | goOn hes heff =>
    obtain ⟨hcur, hlen, hp, hout, hwf, -⟩ := exec_control (exec_of_effect heff)
    exact .of_execute (State.mode_of_es hes) rfl hlen hp (hout ▸ List.prefix_rfl) hwf hcur
  | traceEnd hes =>
    exact .of_trace (State.mode_of_es hes) rfl rfl rfl List.prefix_rfl ⟨rfl, rfl, rfl, rfl, rfl⟩
  | traceLine hes =>
    exact .of_trace (State.mode_of_es hes) (State.mode_of_es hes) rfl rfl (List.prefix_append _ _)
      ⟨rfl, rfl, rfl, rfl, rfl⟩
  | traceFail hes =>
    exact .of_trace (State.mode_of_es hes) rfl rfl rfl (List.prefix_append _ _) ⟨rfl, rfl, rfl, rfl, rfl⟩
  | stay => exact .refl s

theorem keeps_of_step {s t : State} (h : step s = .next t) : Keeps s t := by
  have hmoves := moves_of_step h
  clear h
  induction hmoves with
  | refl => exact .refl s
  | tail _ hmove ih => exact ih.trans hmove.keeps

/-! ### The invariant -/

/-- The address a refusal records is the one the instruction was decoded at (R268, log entry 19). -/
theorem ofNat_add_sub_toNat {address : Nat} (h : address < 2 ^ 16) (size : Nat) :
    (BitVec.ofNat 16 (address + size) - BitVec.ofNat 16 size).toNat = address := by
  rw [BitVec.ofNat_add, BitVec.add_sub_cancel, BitVec.toNat_ofNat, Nat.mod_eq_of_lt h]

/-- The clause of each engine state holds after a move into it. -/
theorem Move.esInv {s t : State} (hinv : s.esInv) (h : Move s t) : t.esInv := by
  unfold State.esInv at hinv
  cases h with
  | decode hes hdec =>
    rw [hes] at hinv
    obtain ⟨herr, -⟩ := hinv
    exact ⟨herr, rfl, hdec⟩
  | @fail k hes hdec =>
    rw [hes] at hinv
    obtain ⟨-, hip⟩ := hinv
    exact ⟨⟨k, rfl⟩, hip⟩
  | @enter d hes =>
    rw [hes] at hinv
    obtain ⟨herr, haddr, -⟩ := hinv
    refine ⟨herr, haddr ▸ s.ip.isLt, ?_⟩
    rw [enterApplying_ip, haddr, BitVec.ofNat_add, BitVec.ofNat_toNat, BitVec.setWidth_eq]
  | @refuse d hes hx hp =>
    rw [hes] at hinv
    obtain ⟨-, haddr, hip⟩ := hinv
    obtain ⟨hmin, hmax⟩ := size_range d.instr
    refine ⟨d.address, d.instr.size, d.instr.mnemonic, ?_, hx, hmin, hmax, haddr, hip⟩
    simp only [refuseUnimplemented, State.setEs_err, State.setErr_err, hip, ofNat_add_sub_toNat haddr]
  | halt hes heff hrun hip =>
    rw [hes] at hinv
    obtain ⟨herr, -⟩ := hinv
    obtain ⟨-, hsame⟩ := heff.keeps_control hrun
    exact ⟨hsame.trans herr, hip⟩
  | goOn hes heff hrun hip =>
    rw [hes] at hinv
    obtain ⟨herr, -⟩ := hinv
    obtain ⟨-, hsame⟩ := heff.keeps_control hrun
    exact ⟨hsame.trans herr, .inl hip⟩
  | traceEnd hes hcur =>
    rw [hes] at hinv
    obtain ⟨herr, -⟩ := hinv
    exact ⟨herr, hcur⟩
  | traceLine hes hcur hdec =>
    rw [hes] at hinv
    obtain ⟨herr, -⟩ := hinv
    unfold State.esInv
    rw [State.setCur_es, State.emit_es, hes]
    exact ⟨herr, decodeAt_fits hdec⟩
  | @traceFail k hes hcur hdec =>
    rw [hes] at hinv
    obtain ⟨-, hle⟩ := hinv
    exact ⟨⟨k, rfl⟩, lt_of_le_of_ne hle hcur⟩
  | stay => exact hinv

theorem Move.inv {s t : State} (hs : s.Inv) (h : Move s t) : t.Inv := by
  obtain ⟨hwf, hmax, hes⟩ := hs
  have hkeeps := h.keeps
  exact ⟨hkeeps.wf hwf, by rw [hkeeps.loadedLen, hkeeps.mode]; exact hmax, h.esInv hes⟩

theorem inv_of_step {s t : State} (hs : s.Inv) (h : step s = .next t) : t.Inv := by
  have hmoves := moves_of_step h
  clear h
  induction hmoves with
  | refl => exact hs
  | tail _ hmove ih => exact hmove.inv ih

theorem inv_of_boot {image : List Byte} {mode : Mode} {policy : UnimplPolicy} {s : State}
    (h : boot image mode policy = .next s) : s.Inv := by
  obtain ⟨hfits, hmode, rfl⟩ := boot_eq_next_iff.mp h
  have hwf : (Memory.ofImage 0 image).wf = true := Memory.ofImage_wf (by rwa [Nat.zero_add])
  cases mode with
  | trace => exact ⟨hwf, hmode, rfl, Nat.zero_le _⟩
  | execute => exact ⟨hwf, hmode, rfl, (Nat.eq_zero_or_pos _).symm.imp_right fun hlen => ⟨hlen, rfl⟩⟩

/-! ### What follows the effect, and the two turns of the Trace loop that do not fail, as equations -/

theorem next_concludeApplying (u : State) :
    (.next (concludeApplying u) : Host.Outcome State Fault Refusal) =
      if u.es = .refused then .next u
      else if u.loadedLen ≤ u.ip.toNat then
        .next { u with es := .haltedNormal, out := u.out ++ [.report u.regs u.ip u.zf u.sf] }
      else .next { u with es := .fetching } := by
  obtain ⟨hu, hnext⟩ | ⟨hu, hip, hnext⟩ | ⟨hu, hip, hnext⟩ := concludeApplying_cases u
  · rw [hnext, if_pos hu]
  · rw [hnext, if_neg hu, if_pos hip]
    rfl
  · rw [hnext, if_neg hu, if_neg (Nat.not_le.mpr hip)]
    rfl

theorem traceFetch_end {s : State} (h : s.cur = s.loadedLen) : traceFetch s = s.setEs .traceDone := if_pos h

theorem traceFetch_line {s : State} {i : Instr} (hcur : s.cur ≠ s.loadedLen) (hdec : decodeAt s s.cur = .ok i) :
    traceFetch s = (s.emit (.line (render (DecodedInstr.record ⟨s.cur, i⟩)))).setCur (s.cur + i.size) := by
  rw [traceFetch, if_neg hcur, hdec]

end Sys2Proof.Machine
end

section
/-! PROOFS. The statements of spec/45_sequencer.md and spec/70_reset_and_hazards.md on single steps and transitions.
-/

open Sys2Proof Sys2Proof.Machine

namespace Sys2Proof.Proofs

/-- Settles O51: a step is a sequence of moves, each of which keeps the invariant. -/
theorem stepKeepsTheMachineInvariant : Obligations.StepKeepsTheMachineInvariant :=
  fun _ _ hinv hstep => inv_of_step hinv hstep

/-- Settles O52: a transition is one move, and each of the ten keeps the invariant. -/
theorem transitionKeepsTheMachineInvariant : Obligations.TransitionKeepsTheMachineInvariant :=
  fun _ _ hinv hnext => (move_of_transition hnext).inv hinv

/-- Settles O50: the store of an image is canonical, and the length is within the bound that reset has tested. -/
theorem resetHasTheMachineInvariant : Obligations.ResetHasTheMachineInvariant := by
  exact ⟨⟨reset_mem_wf, Nat.zero_le _, rfl, .inr ⟨rfl, rfl⟩⟩, fun _ _ _ _ hboot => inv_of_boot hboot⟩

/-- Settles O34: the same bytes below the loaded length satisfy the same characterisation of a decode. -/
theorem decodeDependsOnItsOwnBytesOnly : Obligations.DecodeDependsOnItsOwnBytesOnly := by
  intro s t p i hdec hfits hsame
  obtain ⟨hwf, -, hbytes⟩ := decodeAt_eq_ok_iff.mp hdec
  refine decodeAt_eq_ok_iff.mpr ⟨hwf, hfits, fun k hk => ?_⟩
  rw [hsame (p + k) (Nat.le_add_right p k) (by omega)]
  exact hbytes k hk

/-- Settles O42: the transitions compose to the step. -/
theorem macroStepIsThreeTransitions : Obligations.MacroStepIsThreeTransitions := by
  intro s hes
  exact ⟨fun ⟨_, hdec⟩ => step_fetching_ok_eq hes hdec, fun ⟨_, hdec⟩ => step_fetching_error_eq hes hdec⟩

/-- Settles O43: each move is one entry of the table. -/
theorem transitionsAreThoseOfTheTable : Obligations.TransitionsAreThoseOfTheTable := by
  intro s
  obtain ⟨t, hnext, hmove⟩ := transition_move s
  refine ⟨t, hnext, ?_⟩
  cases hmove with
  | @decode i hes hdec =>
    rw [hes]
    exact .inl ⟨i, hdec, rfl⟩
  | @fail k hes hdec =>
    rw [hes]
    exact .inr ⟨k, hdec, takeFailure_eq ..⟩
  | enter hes =>
    rw [hes]
    rfl
  | refuse hes hx hp =>
    rw [hes]
    exact ⟨_, exec_of_effect (.refused hx hp), .inr (.inr ⟨hx, hp, rfl, rfl⟩)⟩
  | @halt d u hes heff hrun hip =>
    rw [hes]
    exact ⟨u, exec_of_effect heff, .inr (.inl ⟨hrun, hip, rfl⟩)⟩
  | @goOn d u hes heff hrun hip =>
    rw [hes]
    exact ⟨u, exec_of_effect heff, .inl ⟨hrun, hip, rfl⟩⟩
  | traceEnd hes hcur =>
    rw [hes]
    exact fun _ => .inl ⟨hcur, rfl⟩
  | @traceLine i hes hcur hdec =>
    rw [hes]
    exact fun hle => .inr (.inl ⟨lt_of_le_of_ne hle hcur, i, hdec, by rw [← hes]; rfl⟩)
  | @traceFail k hes hcur hdec =>
    rw [hes]
    exact fun hle => .inr (.inr ⟨lt_of_le_of_ne hle hcur, k, hdec, takeFailure_eq ..⟩)
  | stay hend =>
    cases hes : s.es <;> simp [State.ended, EngineState.terminal, hes] at hend ⊢

/-- Settles O46: a step is a sequence of transitions, each of which answers. -/
theorem everyStepAnswersANextState : Obligations.EveryStepAnswersANextState := by
  intro s
  obtain ⟨t, hstep, -⟩ := step_reaches s
  exact ⟨t, hstep⟩

/-- Settles O47: every move keeps the configuration and extends the outputs. -/
theorem configurationAndPastOutputsAreConstant : Obligations.ConfigurationAndPastOutputsAreConstant := by
  intro s t hstep
  have hkeeps := keeps_of_step hstep
  obtain ⟨more, hmore⟩ := hkeeps.out
  exact ⟨hkeeps.loadedLen, hkeeps.mode, hkeeps.policy, more, hmore.symm⟩

/-- Settles O48: every move touches the position of its own mode alone. -/
theorem modesTouchOnlyTheirOwnPosition : Obligations.ModesTouchOnlyTheirOwnPosition := by
  intro s t hstep
  have hkeeps := keeps_of_step hstep
  exact ⟨hkeeps.cur, hkeeps.registers⟩

/-- Settles O49: a terminal state has no transition, and the model lets it stay. -/
theorem endedRunStaysAsItIs : Obligations.EndedRunStaysAsItIs :=
  fun _ hend => ⟨step_ended hend, transition_ended hend⟩

/-- Settles O39: the state before the effect is `enterApplying`, and what follows the effect is `concludeApplying`. -/
theorem stepRunsTheDecodedInstruction : Obligations.StepRunsTheDecodedInstruction := by
  intro s i hes hdec
  obtain ⟨u, hexec, -⟩ := exec_effect i (enterApplying ⟨s.ip.toNat, i⟩ s)
  rw [step_fetching_ok hes hdec, applyInstr_of_exec hexec]
  change _ = match exec i (enterApplying ⟨s.ip.toNat, i⟩ s) with
    | .next t => _
    | .fault f => _
    | .refused r => _
  rw [hexec]
  exact next_concludeApplying u

/-- Settles O41: after the advance of `IP` by the size, `IP - size` is the address of the instruction. -/
theorem stepRefusesAtTheInstructionsAddress : Obligations.StepRefusesAtTheInstructionsAddress := by
  intro s i hes hp hdec hx
  have hexec := exec_of_effect (s := enterApplying ⟨s.ip.toNat, i⟩ s) (.refused hx hp)
  rw [step_fetching_ok hes hdec, applyInstr_of_exec hexec, concludeApplying, refuseUnimplemented,
    enterApplying_ip, BitVec.add_sub_cancel]
  rfl

/-- Settles O44: the two turns of the Trace loop; a decoded instruction lies below the loaded length. -/
theorem traceStepPrintsAndAdvances : Obligations.TraceStepPrintsAndAdvances := by
  intro s hes hle
  refine ⟨fun hcur => ?_, fun i hlt hdec => ⟨?_, decodeAt_fits hdec⟩⟩
  · rw [step_traceFetching hes, traceFetch_end hcur]
    rfl
  · rw [step_traceFetching hes, traceFetch_line (Nat.ne_of_lt hlt) hdec]
    rfl

/-- Settles O45: the window is a map over its positions. -/
theorem fetchReadsTheStoreAsItIs : Obligations.FetchReadsTheStoreAsItIs :=
  fun m p L => ⟨fetchWindow_length m p L, fun _ hk => fetchWindow_getElem? m hk⟩

end Sys2Proof.Proofs
end

section
/-! SUPPORT. Runs (spec/45_sequencer.md R273, R275): a run of steps unrolled at its first step, what every run keeps,
the invariant and the registers of a reachable state, and the Trace loop to its end. -/

namespace Sys2Proof.Machine

theorem run_succ_of_step {s t : State} (h : step s = .next t) (n : Nat) : core.run (n + 1) s = core.run n t := by
  have hcore : core.step s = .next t := h
  simp only [Host.Core.run, hcore]

theorem run_one_of_step {s t : State} (h : step s = .next t) : core.run 1 s = .next t := run_succ_of_step h 0

theorem run_keeps (n : Nat) (s : State) : ∃ t, core.run n s = .next t ∧ Keeps s t := by
  induction n generalizing s with
  | zero => exact ⟨s, rfl, .refl s⟩
  | succ n ih =>
    obtain ⟨u, hstep, -⟩ := step_reaches s
    obtain ⟨t, hrun, hkeeps⟩ := ih u
    exact ⟨t, (run_succ_of_step hstep n).trans hrun, (keeps_of_step hstep).trans hkeeps⟩

/-! ### Reachable states -/

theorem Reachable.inv {s : State} (h : Reachable s) : s.Inv := by
  induction h with
  | boot _ _ _ _ hboot => exact inv_of_boot hboot
  | step _ _ _ hstep ih => exact inv_of_step ih hstep

/-- A state of a Trace run has the registers and flags of the reset. -/
theorem Reachable.registers_of_trace {s : State} (h : Reachable s) (hm : s.mode = .trace) :
    s.regs = State.reset.regs ∧ s.ip = State.reset.ip ∧ s.zf = State.reset.zf ∧ s.sf = State.reset.sf := by
  induction h with
  | boot _ _ _ _ hboot =>
    obtain ⟨-, -, rfl⟩ := boot_eq_next_iff.mp hboot
    exact ⟨rfl, rfl, rfl, rfl⟩
  | step s t _ hstep ih =>
    have hkeeps := keeps_of_step hstep
    have hms := hkeeps.mode.symm.trans hm
    obtain ⟨hregs, hip, hzf, hsf⟩ := ih hms
    obtain ⟨hregs', hip', hzf', hsf', -⟩ := hkeeps.registers hms
    exact ⟨hregs'.trans hregs, hip'.trans hip, hzf'.trans hzf, hsf'.trans hsf⟩

/-- The record of a decode failure, whichever of the two it is. -/
theorem err_of_failure {s : State} {p : Nat} (h : ∃ k, s.err = some ⟨failureKind k, p, none⟩) :
    s.err = some ⟨.unrecognizedOpcode, p, none⟩ ∨ s.err = some ⟨.truncatedInstruction, p, none⟩ := by
  obtain ⟨k, hk⟩ := h
  cases k
  · exact .inl hk
  · exact .inr hk

/-! ### The Trace loop -/

theorem step_trace_end {s : State} (hes : s.es = .traceFetching) (hcur : s.cur = s.loadedLen) :
    step s = .next (s.setEs .traceDone) := by
  rw [step_traceFetching hes, traceFetch_end hcur]

/-- The state after one line of a trace. -/
def traceNext (s : State) (i : Instr) : State :=
  (s.emit (.line (render (DecodedInstr.record ⟨s.cur, i⟩)))).setCur (s.cur + i.size)

theorem step_trace_line {s : State} {i : Instr} (hes : s.es = .traceFetching) (hcur : s.cur ≠ s.loadedLen)
    (hdec : decodeAt s s.cur = .ok i) : step s = .next (traceNext s i) := by
  rw [step_traceFetching hes, traceFetch_line hcur hdec, traceNext]

/-- Each line moves `CUR` by at least two bytes towards the loaded length. -/
theorem trace_terminates (s : State) (hes : s.es = .traceFetching) (hle : s.cur ≤ s.loadedLen) :
    ∃ n t, n ≤ (s.loadedLen - s.cur) / 2 + 1 ∧ core.run n s = .next t ∧
      (t.es = .traceDone ∨ t.es = .traceError) := by
  induction hm : s.loadedLen - s.cur using Nat.strong_induction_on generalizing s with
  | _ m ih =>
    by_cases hcur : s.cur = s.loadedLen
    · exact ⟨1, _, by omega, run_one_of_step (step_trace_end hes hcur), .inl rfl⟩
    · cases hdec : decodeAt s s.cur with
      | error k => exact ⟨1, _, by omega, run_one_of_step (step_traceFetching_error hes hcur hdec), .inr rfl⟩
      | ok i =>
        have hfits := decodeAt_fits hdec
        obtain ⟨hsize, -⟩ := size_range i
        have hleft : (traceNext s i).loadedLen - (traceNext s i).cur = m - i.size := by
          change s.loadedLen - (s.cur + i.size) = m - i.size
          omega
        obtain ⟨n, t, hn, hrun, hend⟩ := ih (m - i.size) (by omega) (traceNext s i) hes hfits hleft
        exact ⟨n + 1, t, by omega, (run_succ_of_step (step_trace_line hes hcur hdec) n).trans hrun, hend⟩

/-- The text of an instruction does not depend on where it stands (R289). -/
theorem render_address (p q : Nat) (i : Instr) :
    render (DecodedInstr.record ⟨p, i⟩) = render (DecodedInstr.record ⟨q, i⟩) := render_congr rfl rfl rfl

/-- `bs` stands in the store from `CUR` on and ends at the loaded length. -/
def Ahead (s : State) (bs : List Byte) : Prop :=
  s.cur + bs.length = s.loadedLen ∧ ∀ k, k < bs.length → bs[k]? = some (s.mem.read (s.cur + k))

theorem decodeAt_of_ahead {s : State} {i : Instr} {rest : List Byte} (hwf : i.wf = true)
    (h : Ahead s (encode i ++ rest)) : decodeAt s s.cur = .ok i := by
  obtain ⟨hlen, hbytes⟩ := h
  rw [List.length_append, encode_length hwf] at hlen hbytes
  refine decodeAt_eq_ok_iff.mpr ⟨hwf, by omega, fun k hk => ?_⟩
  rw [← hbytes k (by omega), List.getElem?_append_left (by rw [encode_length hwf]; exact hk)]

theorem ahead_traceNext {s : State} {i : Instr} {rest : List Byte} (hwf : i.wf = true)
    (h : Ahead s (encode i ++ rest)) : Ahead (traceNext s i) rest := by
  obtain ⟨hlen, hbytes⟩ := h
  rw [List.length_append, encode_length hwf] at hlen hbytes
  refine ⟨(Nat.add_assoc ..).trans hlen, fun k hk => ?_⟩
  have hbyte := hbytes (i.size + k) (by omega)
  rwa [← encode_length hwf, List.getElem?_append_right (by omega), Nat.add_sub_cancel_left, encode_length hwf,
    ← Nat.add_assoc] at hbyte

/-- A trace that has the encodings of well-formed instructions ahead of it lists them and ends. -/
theorem trace_lists {is : List Instr} (hwf : ∀ i ∈ is, i.wf = true) (s : State) (hes : s.es = .traceFetching)
    (h : Ahead s (is.flatMap encode)) :
    ∃ t, core.run (is.length + 1) s = .next t ∧ t.es = .traceDone ∧ t.cur = s.loadedLen ∧ t.err = s.err ∧
      t.out = s.out ++ is.map fun i => .line (render (DecodedInstr.record ⟨0, i⟩)) := by
  induction is generalizing s with
  | nil =>
    obtain ⟨hcur, -⟩ := h
    exact ⟨_, run_one_of_step (step_trace_end hes hcur), rfl, hcur, rfl, (List.append_nil _).symm⟩
  | cons i is ih =>
    rw [List.flatMap_cons] at h
    obtain ⟨hi, his⟩ := List.forall_mem_cons.mp hwf
    have hdec := decodeAt_of_ahead hi h
    have hcur : s.cur ≠ s.loadedLen := by
      have := decodeAt_fits hdec
      obtain ⟨hsize, -⟩ := size_range i
      omega
    obtain ⟨t, hrun, hdone, hend, herr, hout⟩ := ih his (traceNext s i) hes (ahead_traceNext hi h)
    refine ⟨t, (run_succ_of_step (step_trace_line hes hcur hdec) _).trans hrun, hdone, hend, herr, ?_⟩
    rw [hout, List.map_cons, ← render_address s.cur 0 i, List.append_cons]
    rfl

end Sys2Proof.Machine
end

section
/-! PROOFS. The statements of spec/45_sequencer.md and spec/70_reset_and_hazards.md on runs. -/

open Sys2Proof Sys2Proof.Machine

namespace Sys2Proof.Proofs

/-- Settles O53: the invariant's clause of each terminal state, and the reset values a Trace run keeps. -/
theorem endsOfReachableRuns : Obligations.EndsOfReachableRuns := by
  intro s hs
  obtain ⟨-, -, hinv⟩ := hs.inv
  unfold State.esInv at hinv
  refine ⟨fun hes => ?haltedNormal, fun hes => ?haltedError, fun hes => ?refused, fun hes => ?traceDone,
    fun hes => ?traceError, hs.registers_of_trace⟩ <;> rw [hes] at hinv
  case haltedNormal => exact hinv.symm
  case haltedError =>
    obtain ⟨hfailure, hip⟩ := hinv
    exact ⟨hip.imp_right And.left, err_of_failure hfailure⟩
  case refused =>
    obtain ⟨address, size, op, herr, hx, hmin, hmax, -, hip⟩ := hinv
    exact ⟨address, size, op, herr, hx, hmin, hmax, hip⟩
  case traceDone => exact hinv.symm
  case traceError =>
    obtain ⟨hfailure, hlt⟩ := hinv
    exact ⟨hlt, err_of_failure hfailure⟩

/-- Settles O54: induction on the bytes left. -/
theorem traceAlwaysTerminates : Obligations.TraceAlwaysTerminates :=
  fun s hes hle => trace_terminates s hes hle

/-- Settles O55: the image has the encodings ahead of `CUR = 0`. -/
theorem traceOfAValidProgramListsIt : Obligations.TraceOfAValidProgramListsIt := by
  intro is policy s hwf hboot
  obtain ⟨hloaded, -⟩ := bootLoadsTheImageAndZeroFill _ _ _ _ hboot
  obtain ⟨-, -, rfl⟩ := boot_eq_next_iff.mp hboot
  refine trace_lists hwf _ rfl ⟨Nat.zero_add _, fun k hk => (hloaded k hk).trans ?_⟩
  exact congrArg (fun a => some (Memory.read _ a)) (Nat.zero_add k).symm

/-- Settles O58: what a Trace run keeps, from the store that reset has loaded. -/
theorem traceRunLeavesRegistersAndMemory : Obligations.TraceRunLeavesRegistersAndMemory := by
  intro image policy s hboot n
  obtain ⟨hloaded, -⟩ := bootLoadsTheImageAndZeroFill _ _ _ _ hboot
  obtain ⟨t, hrun, hkeeps⟩ := run_keeps n s
  have hmode : s.mode = .trace := by
    obtain ⟨-, -, rfl⟩ := boot_eq_next_iff.mp hboot
    rfl
  obtain ⟨hregs, hip, hzf, hsf, hmem⟩ := hkeeps.registers hmode
  refine ⟨t, hrun, hregs, hip, hzf, hsf, hmem, fun a ha => ?_⟩
  rw [hmem]
  exact hloaded a ha

end Sys2Proof.Proofs
end

section
/-! SUPPORT. The canonical form makes the list of cells a function of the contents (spec/10_state.md R36,
spec/20_memory.md R61); effective addresses as integers (R65); the canonical integers of a field (spec/30_encoding.md
R105 to R109). -/

namespace Sys2Proof.Machine

/-- Lists in canonical form from one bound on that read alike are equal: the first cell of each is the first address
that does not read as the fill. -/
theorem Memory.eq_of_read_eq {m m' : Memory} {lo : Nat} (h : Memory.wfFrom lo m = true)
    (h' : Memory.wfFrom lo m' = true) (hread : ∀ a, a < Config.memSize → m.read a = m'.read a) : m = m' := by
  induction m generalizing m' lo with
  | nil =>
    cases m' with
    | nil => rfl
    | cons c' rest' =>
      obtain ⟨-, hin, hfill, -⟩ := Memory.wfFrom_cons.mp h'
      have hcell := hread c'.1 hin
      rw [Memory.read_nil, Memory.read_cons, if_pos rfl] at hcell
      exact absurd hcell.symm hfill
  | cons c rest ih =>
    obtain ⟨a, v⟩ := c
    obtain ⟨hlo, hin, hfill, hrest⟩ := Memory.wfFrom_cons.mp h
    have hcell := hread a hin
    rw [Memory.read_cons, if_pos rfl] at hcell
    cases m' with
    | nil => exact absurd hcell hfill
    | cons c' rest' =>
      obtain ⟨a', v'⟩ := c'
      obtain ⟨hlo', hin', hfill', hrest'⟩ := Memory.wfFrom_cons.mp h'
      have hcell' := hread a' hin'
      rw [Memory.read_cons _ v', if_pos rfl] at hcell'
      obtain hlt | rfl | hgt := lt_trichotomy a a'
      · rw [Memory.read_cons, if_neg (by omega), Memory.read_below hrest' (by omega)] at hcell
        exact absurd hcell hfill
      · rw [Memory.read_cons, if_pos rfl] at hcell
        subst hcell
        rw [ih hrest hrest' fun x hx => ?_]
        obtain hle | hgt := Nat.lt_or_ge x (a + 1)
        · rw [Memory.read_below hrest hle, Memory.read_below hrest' hle]
        · have hx' := hread x hx
          rwa [Memory.read_cons, Memory.read_cons, if_neg (by omega), if_neg (by omega)] at hx'
      · rw [Memory.read_cons, if_neg (by omega), Memory.read_below hrest (by omega)] at hcell'
        exact absurd hcell'.symm hfill'

theorem memRead_byte_eq (m : Memory) (a : Nat) : memRead m a false = zextByte (m.read a) := rfl

/-! ### Effective addresses and immediates as integers -/

theorem toNat_ofInt_word (x : Int) : ((BitVec.ofInt 16 x).toNat : Int) = x % 65536 := by
  rw [BitVec.toNat_ofInt]
  omega

theorem toNat_ofInt_byte (x : Int) : ((BitVec.ofInt 8 x).toNat : Int) = x % 256 := by
  rw [BitVec.toNat_ofInt]
  omega

/-- A base pair of two registers: one reduction of the integer sum. -/
theorem toNat_add_add_ofInt (a b : Word) (x : Int) :
    ((a + b + BitVec.ofInt 16 x).toNat : Int) = (a.toNat + b.toNat + x) % 65536 := by
  rw [toNat_add_ofInt, BitVec.toNat_add]
  omega

end Sys2Proof.Machine

namespace Sys2Proof

theorem byte_toInt (b : Byte) : b.toInt = if b.toNat < 128 then (b.toNat : Int) else (b.toNat : Int) - 256 := by
  rw [BitVec.toInt_eq_toNat_cond]
  split <;> split <;> omega

theorem word_toInt (w : Word) : w.toInt = if w.toNat < 32768 then (w.toNat : Int) else (w.toNat : Int) - 65536 := by
  rw [BitVec.toInt_eq_toNat_cond]
  split <;> split <;> omega

@[simp] theorem JumpOp.operands_instr (op : JumpOp) (rel : Byte) :
    (op.instr rel).operands = [.immediate rel.toInt true] := by cases op <;> rfl

@[simp] theorem JumpOp.wide_instr (op : JumpOp) (rel : Byte) : (op.instr rel).wide = false := by cases op <;> rfl

@[simp] theorem ArithOp.operands_instrRM (op : ArithOp) (d w : Bool) (reg : BitVec 3) (rm : RmOperand) :
    (op.instrRM d w reg rm).operands = [dstRM d reg rm, srcRM d reg rm] := by cases op <;> rfl

@[simp] theorem ArithOp.wide_instrRM (op : ArithOp) (d w : Bool) (reg : BitVec 3) (rm : RmOperand) :
    (op.instrRM d w reg rm).wide = w := by cases op <;> rfl

@[simp] theorem ArithOp.operands_instrIRM (op : ArithOp) (s w : Bool) (rm : RmOperand) (imm : Imm) :
    (op.instrIRM s w rm imm).operands = [rm.operand, imm.operand] := by cases op <;> rfl

@[simp] theorem ArithOp.wide_instrIRM (op : ArithOp) (s w : Bool) (rm : RmOperand) (imm : Imm) :
    (op.instrIRM s w rm imm).wide = w := by cases op <;> rfl

@[simp] theorem ArithOp.operands_instrIA (op : ArithOp) (w : Bool) (imm : Imm) :
    (op.instrIA w imm).operands = [accumulator, imm.operand] := by cases op <;> rfl

@[simp] theorem ArithOp.wide_instrIA (op : ArithOp) (w : Bool) (imm : Imm) :
    (op.instrIA w imm).wide = w := by cases op <;> rfl

/-- The operands of format RM, in the order of `d` (R111). -/
theorem operandsRM_eq (d : Bool) (reg : BitVec 3) (rm : RmOperand) :
    [dstRM d reg rm, srcRM d reg rm] =
      if d then [.register reg, rm.operand] else [rm.operand, .register reg] := by cases d <;> rfl

end Sys2Proof
end

section
/-! PROOFS. The statements of spec/10_state.md, spec/20_memory.md and spec/70_reset_and_hazards.md on the reset, the
store and the effective address, and of spec/30_encoding.md and spec/45_sequencer.md on operands. -/

open Sys2Proof Sys2Proof.Machine

namespace Sys2Proof.Proofs

/-- Settles O1: every register of the reset state is 0, and the empty image is an empty store. -/
theorem resetStateHasTheTableOfReset : Obligations.ResetStateHasTheTableOfReset := by
  refine ⟨fun c => ?_, rfl, rfl, rfl, fun _ => rfl, rfl, rfl, rfl, rfl, rfl, rfl⟩
  rw [Regs.read_wide]
  cases regOfCode c <;> rfl

/-- Settles O3: the two tests of the image's length, and the state when neither holds. -/
theorem bootAcceptsExactlyWhatFits : Obligations.BootAcceptsExactlyWhatFits := by
  intro image mode policy
  refine ⟨fun hlong => ?tooLong, fun hfits hlong => ?tooLongToExecute, fun hfits => ?accepted⟩
  case tooLong => exact if_pos hlong
  case tooLongToExecute => exact (if_neg (Nat.not_lt.mpr hfits)).trans (if_pos hlong)
  case accepted =>
    have haccepted : image.length ≤ Config.memSize ∧ image.length ≤ mode.maxLen := by
      cases mode with
      | execute => exact ⟨le_trans hfits (by decide), hfits⟩
      | trace => exact ⟨hfits, hfits⟩
    obtain ⟨hmem, hmax⟩ := haccepted
    refine ⟨_, boot_eq_next_iff.mpr ⟨hmem, hmax, rfl⟩, rfl, rfl, rfl, rfl, rfl, rfl, rfl, rfl, rfl, ?_⟩
    cases mode <;> rfl

/-- Settles O9: the addressed byte is the low one and the next the high one, for a write, a read and a fetch. -/
theorem byteOrderIsLittleEndianEverywhere : Obligations.ByteOrderIsLittleEndianEverywhere := by
  intro m a v lo hi hwf ha
  have hread (w : Word) (x : Nat) := read_memWrite (wide := true) w hwf ha x
  refine ⟨?low, ?high, ?word, ?bytes, fun _ => rfl⟩
  case low => rw [memRead_byte_eq, hread, if_pos rfl, zextByte_loByte]
  case high => rw [memRead_byte_eq, hread, if_neg (Nat.succ_ne_self a), if_pos ⟨rfl, rfl⟩, zextByte_hiByte]
  case word => rw [memRead_memWrite_self v hwf ha, and_widthMask_word]
  case bytes =>
    have hwrite : (m.write a lo).write (a + 1) hi = memWrite m a true (mkWord hi lo) := by simp [memWrite]
    rw [hwrite, memRead_memWrite_self _ hwf ha, and_widthMask_word]
    rfl

/-- Settles O10: the two bytes of the access are at 0xFFFF and the address after it. -/
theorem wordAtTopOfSegmentDoesNotWrap : Obligations.WordAtTopOfSegmentDoesNotWrap := by
  intro m v hwf
  have hread (x : Nat) := read_memWrite v hwf (ea_access_le 0xFFFF#16 true) x
  exact ⟨rfl, hread _, hread _, hread _⟩

/-- Settles O11: the lists agree cell by cell. -/
theorem canonicalStoresThatReadAlikeAreEqual : Obligations.CanonicalStoresThatReadAlikeAreEqual :=
  fun _ _ hwf hwf' hread => Memory.eq_of_read_eq hwf hwf' hread

/-- Settles O12: the sum of words is the integer sum reduced. -/
theorem effectiveAddressIsTheSumModulo64K : Obligations.EffectiveAddressIsTheSumModulo64K := by
  intro r disp
  exact ⟨toNat_ofInt_word _, toNat_add_add_ofInt .., toNat_add_add_ofInt .., toNat_add_add_ofInt ..,
    toNat_add_add_ofInt .., toNat_add_ofInt .., toNat_add_ofInt .., toNat_add_ofInt .., toNat_add_ofInt ..⟩

/-- Settles O56: the register and memory accessors in numbers, and the reduction of an immediate. -/
theorem operandReadGivesItsValue : Obligations.OperandReadGivesItsValue := by
  intro s
  refine ⟨fun c => ⟨Regs.read_wide .., ?byte⟩, fun m => ⟨memRead_word_toNat .., memRead_byte_toNat ..⟩,
    fun v _ => ⟨toNat_ofInt_word v, ?immediate⟩⟩
  case byte =>
    obtain ⟨-, hlow, hhigh, -⟩ := registerReadGivesTheNamedView s.regs c
    split
    case isTrue hc => exact hlow hc
    case isFalse hc => exact hhigh (Nat.not_lt.mp hc)
  case immediate =>
    change ((zextByte (BitVec.ofInt 8 v)).toNat : Int) = v % 256
    rw [zextByte_toNat, toNat_ofInt_byte]

/-- Settles O57: `x` and `v` are the operand and the value of the model's view, whose operands are given by the form. -/
theorem operandsOfEachFormatAreItsFields : Obligations.OperandsOfEachFormatAreItsFields := by
  refine ⟨fun rm x imm v hx hv d s w reg op => ?fields, fun w addr => ⟨rfl, rfl, rfl, rfl⟩, fun op rel => ?jump⟩
  case fields =>
    have hrm : rm.operand = x := by
      obtain ⟨c, rfl, rfl⟩ | ⟨b, rfl, rfl⟩ | ⟨b, disp, rfl, rfl⟩ | ⟨b, disp, rfl, rfl⟩ | ⟨addr, rfl, rfl⟩ := hx
      · rfl
      · rfl
      · rw [RmOperand.operand, byte_toInt]
      · rw [RmOperand.operand, word_toInt]
      · rfl
    have himm : imm.operand = .immediate v false := by
      obtain ⟨b, rfl, rfl⟩ | ⟨w, rfl, rfl⟩ := hv
      · rw [Imm.operand, Imm.value, byte_toInt]
      · rfl
    subst hrm
    rw [op.operands_instrRM, op.operands_instrIRM, op.operands_instrIA, ← himm]
    exact ⟨operandsRM_eq .., operandsRM_eq .., rfl, rfl, rfl, rfl, rfl, op.wide_instrRM .., op.wide_instrIRM .., rfl,
      op.wide_instrIA .., rfl⟩
  case jump => rw [op.operands_instr, op.wide_instr, byte_toInt]; exact ⟨rfl, rfl⟩

end Sys2Proof.Proofs
end

section
/-! SUPPORT. The text of an instruction with two operands (spec/46_text_rendering.md R280, R285, R287): the size
keyword as a function of its operands, and what the encodings of R122 have in common. -/

namespace Sys2Proof

/-- The operation of a sub-opcode (R99). -/
def ArithOp.mnemonic : ArithOp → Mnemonic
  | .add => .add
  | .or => .or
  | .adc => .adc
  | .sbb => .sbb
  | .and => .and
  | .sub => .sub
  | .cmp => .cmp

@[simp] theorem ArithOp.mnemonic_instrRM (op : ArithOp) (d w : Bool) (reg : BitVec 3) (rm : RmOperand) :
    (op.instrRM d w reg rm).mnemonic = op.mnemonic := by cases op <;> rfl

@[simp] theorem ArithOp.mnemonic_instrIRM (op : ArithOp) (s w : Bool) (rm : RmOperand) (imm : Imm) :
    (op.instrIRM s w rm imm).mnemonic = op.mnemonic := by cases op <;> rfl

@[simp] theorem ArithOp.mnemonic_instrIA (op : ArithOp) (w : Bool) (imm : Imm) :
    (op.instrIA w imm).mnemonic = op.mnemonic := by cases op <;> rfl

/-- An r/m operand and its sign-extended or displaced form are one operand (R122 b). -/
theorem operand_mem8_zero (b : BasePair) : (RmOperand.mem8 b 0#8).operand = (RmOperand.mem b).operand := rfl

theorem operand_mem16_signExtend (b : BasePair) (disp : Byte) :
    (RmOperand.mem16 b (disp.signExtend 16)).operand = (RmOperand.mem8 b disp).operand := by
  simp only [RmOperand.operand, BitVec.toInt_signExtend_of_le (show 8 ≤ 16 by decide)]

/-- An immediate of 0 to 127 has one value in both lengths (R122 c). -/
theorem imm_value_signExtend {v : Byte} (h : v.toNat < 128) :
    (Imm.word (v.signExtend 16)).operand = (Imm.byte v).operand := by
  have hvalue : ((v.signExtend 16).toNat : Int) = v.toInt := by
    rw [BitVec.signExtend, Machine.toNat_ofInt_word, byte_toInt, if_pos h]
    omega
  rw [Imm.operand, Imm.operand, Imm.value, Imm.value, hvalue]

end Sys2Proof

namespace Sys2Proof.Machine

/-- Two instructions of one operation, wide bit and operands have one text, at any positions. -/
theorem render_eq {p q : Nat} {i j : Instr} (hm : i.mnemonic = j.mnemonic) (hw : i.wide = j.wide)
    (ho : i.operands = j.operands) : render (DecodedInstr.record ⟨p, i⟩) = render (DecodedInstr.record ⟨q, j⟩) :=
  render_congr hm hw ho

section
variable {i : Instr} {w : Bool} {m : EffectiveAddress} {c : BitVec 3} {v : Int} (p : Nat) (hw : i.wide = w)
include hw

/-- With a memory operand and an immediate the size keyword is printed, before the memory operand. -/
theorem render_memory_immediate (ho : i.operands = [.memory m, .immediate v false]) :
    render (DecodedInstr.record ⟨p, i⟩) =
      mnemonicText i.mnemonic ++ " " ++ (if w then "word " else "byte ") ++ memoryText m ++ ", " ++ decInt v := by
  simp [render, DecodedInstr.record, ho, hw, operandsText, operandText, sizeKeyword, isRegisterOperand,
    String.append_assoc]

/-- With a register beside the memory operand no keyword is printed. -/
theorem render_register_memory (ho : i.operands = [.register c, .memory m]) :
    render (DecodedInstr.record ⟨p, i⟩) =
      mnemonicText i.mnemonic ++ " " ++ (registerText w c ++ ", " ++ memoryText m) := by
  simp [render, DecodedInstr.record, ho, hw, operandsText, operandText, sizeKeyword, isRegisterOperand,
    String.append_assoc]

theorem render_memory_register (ho : i.operands = [.memory m, .register c]) :
    render (DecodedInstr.record ⟨p, i⟩) =
      mnemonicText i.mnemonic ++ " " ++ (memoryText m ++ ", " ++ registerText w c) := by
  simp [render, DecodedInstr.record, ho, hw, operandsText, operandText, sizeKeyword, isRegisterOperand,
    String.append_assoc]

end

end Sys2Proof.Machine
end

section
/-! PROOFS. The statements of spec/46_text_rendering.md. -/

open Sys2Proof Sys2Proof.Machine

namespace Sys2Proof.Proofs

/-- Settles O36: the worked examples, by running the renderer. -/
theorem workedExamplesRender : Obligations.WorkedExamplesRender := by
  refine ⟨?_, ?_, ?_, ?_, ?_, ?_, ?_, ?_⟩ <;> decide

/-- Settles O37: format by format, which operands stand beside the memory operand. -/
theorem sizeKeywordExactlyWithoutRegister : Obligations.SizeKeywordExactlyWithoutRegister := by
  intro p i m
  cases hf : i.form with
  | irm s w rm imm =>
    intro hm
    exact render_memory_immediate p (by simp only [Instr.wide, hf]) (by simp only [Instr.operands, hf, hm]; rfl)
  | imv w rm imm =>
    intro hm
    exact render_memory_immediate p (by simp only [Instr.wide, hf]) (by simp only [Instr.operands, hf, hm]; rfl)
  | rm d w reg rm =>
    intro hm
    have hw : i.wide = w := by simp only [Instr.wide, hf]
    have ho : i.operands = if d then [.register reg, .memory m] else [.memory m, .register reg] := by
      simp only [Instr.operands, hf, operandsRM_eq, hm]
    cases d with
    | true => exact render_register_memory p hw ho
    | false => exact render_memory_register p hw ho
  | ma t w addr =>
    rintro rfl
    have hw : i.wide = w := by simp only [Instr.wide, hf]
    have ho : i.operands = if t then [directOperand addr, accumulator] else [accumulator, directOperand addr] := by
      simp only [Instr.operands, hf]
    cases t with
    | true => exact render_memory_register p hw ho
    | false => exact render_register_memory p hw ho
  | ia w imm => simp [Instr.operands, hf, accumulator, Imm.operand]
  | ir w reg imm => simp [Instr.operands, hf, Imm.operand]
  | j rel => simp [Instr.operands, hf]

/-- Settles O38: the two encodings agree in operation, wide bit and operands. -/
theorem renderIsTheSameForRedundantEncodings : Obligations.RenderIsTheSameForRedundantEncodings := by
  refine ⟨render_address, fun p w a b => ?direction, fun p base disp r r' hr d x w reg imm op => ?displacement,
    fun p op rm v hv => ?immediate, fun p op rm imm => ?signBit, fun p op w reg imm addr => ?shortForm⟩
  case direction =>
    exact ⟨render_eq rfl rfl rfl, fun op => render_eq (by simp) (by simp) (by simp [dstRM, srcRM, RmOperand.operand])⟩
  case displacement =>
    have hoperand : r'.operand = r.operand := by
      obtain ⟨rfl, rfl⟩ | ⟨rfl, rfl⟩ := hr
      · exact operand_mem8_zero base
      · exact operand_mem16_signExtend base disp
    have hdst : dstRM d reg r' = dstRM d reg r := by simp only [dstRM, hoperand]
    have hsrc : srcRM d reg r' = srcRM d reg r := by simp only [srcRM, hoperand]
    refine ⟨render_eq rfl rfl ?_, render_eq rfl rfl ?_, render_eq (by simp) (by simp) ?_,
      render_eq (by simp) (by simp) ?_⟩
    · simp only [Instr.operands, Instr.form, hdst, hsrc]
    · simp only [Instr.operands, Instr.form, hoperand]
    · rw [op.operands_instrRM, op.operands_instrRM, hdst, hsrc]
    · rw [op.operands_instrIRM, op.operands_instrIRM, hoperand]
  case immediate =>
    refine render_eq (by simp) (by simp) ?_
    rw [op.operands_instrIRM, op.operands_instrIRM, imm_value_signExtend hv]
  case signBit => exact render_eq (by simp) (by simp) (by simp)
  case shortForm =>
    exact ⟨render_eq (by simp) (by simp) (by simp [accumulator, RmOperand.operand]), render_eq rfl rfl rfl,
      render_eq rfl rfl rfl, render_eq rfl rfl rfl⟩

end Sys2Proof.Proofs
end
